-- ==== Sys2Proof/Word.lean ====
section
/-! DEFINITION. The fixed widths of the hardware (table R7 of 00_scope.md) and the lane vector (rule R13). -/

namespace Sys2Proof

/-- The 32-bit unsigned value of the digest, the seed, each lane and every arithmetic result (R7 HASH_W, R10). -/
abbrev Word := BitVec 32

/-- One byte of an input sequence or of the carry buffer (R40). -/
abbrev Byte := BitVec 8

/-- A 64-bit byte count: the register LEN of SD and the length input of OS (R7 LEN_W, R24). -/
abbrev Count := BitVec 64

/-- The 34-bit SD command header, format SC (R7 CMD_W, R62). -/
abbrev Header := BitVec 34

/-- The 96-bit fixed part of an OS request, format OS (R61). -/
abbrev OsFixed := BitVec 96

/-- A lane vector: the four values `v[0]` to `v[3]` (R13, R22). -/
structure Lanes where
  v0 : Word
  v1 : Word
  v2 : Word
  v3 : Word
  deriving DecidableEq, Repr

end Sys2Proof
end

