-- ==== Sys2Proof/Syntax.lean ====
section
/-! DEFINITION. The selectable operations: one constructor per row of spec/opcode_table.json (R59, R64, R72 of
30_encoding.md). The ignored input bits of entry U6 have no field here, as that entry asks. -/

namespace Sys2Proof

/-- The one operation of OS and the four commands of SD (R59). -/
inductive Instr where
  /-- `XXH32 seed, data` (R100): the one-shot digest of the bytes `data` under `seed`. -/
  | xxh32 (seed : Word) (data : List Byte)
  /-- `INIT seed` (R110): construct the digest context. -/
  | init (seed : Word)
  /-- `APPEND data` (R111): absorb one chunk. -/
  | append (chunk : List Byte)
  /-- `FINAL` (R112): respond with the digest. -/
  | final
  /-- `RESET` (R113): back to the fresh state, seed kept. -/
  | reset
  deriving DecidableEq, Repr

end Sys2Proof
end

