-- ==== Sys2Proof/WellFormed.lean ====
section
/-! DEFINITION. Which instructions their format can carry: the length fields of R61 (64 bits) and R62 (32 bits). The
narrower capacity of a given port (entry U7) is checked when the instruction runs, against `Params`. -/

namespace Sys2Proof

/-- The byte sequence an instruction carries beside its fixed part (R61, R63). -/
def Instr.payload : Instr → List Byte
  | .xxh32 _ data => data
  | .init _ => []
  | .append chunk => chunk
  | .final => []
  | .reset => []

/-- The length fits its field: `os_len` has 64 bits (R61), the APPEND count has 32 (R62, R63). -/
def Instr.wf : Instr → Bool
  | .xxh32 _ data => decide (data.length < 2 ^ 64)
  | .init _ => true
  | .append chunk => decide (chunk.length < 2 ^ 32)
  | .final => true
  | .reset => true

end Sys2Proof
end

