-- ==== Sys2Proof/Decode.lean ====
section
/-! DEFINITION. The port images of a request, the decoder from them (R61 to R68 of 30_encoding.md), and the encoder
written from the same formats. -/

namespace Sys2Proof

/-- An SD command as presented: the 34 wires `cmd` and the bytes of `cmd_data`, byte `i` on wires `8*i+7 : 8*i`
(R60, R62, R63). A byte of the port that the list does not reach is 0 (log entry 7). -/
structure SdCommand where
  cmd : Header
  data : List Byte
  deriving DecidableEq, Repr

/-- An OS request: the vector `os_len, os_seed` with `os_seed` in bits 31:0, and the bytes of `os_data` (R60, R61).
A byte of the port that the list does not reach is 0 (log entry 7). -/
structure OsRequest where
  fixed : OsFixed
  data : List Byte
  deriving DecidableEq, Repr

/-- A request on one of the two separate port sets (R2, R60). -/
inductive Request where
  | sd (c : SdCommand)
  | os (r : OsRequest)
  deriving DecidableEq, Repr

/-- The four values of `op`, header bits 33:32 (R64). -/
inductive Op where
  | init
  | append
  | final
  | reset
  deriving DecidableEq, Repr

/-- Why a word of some width is no fixed part of a request. Raised by `requestOfWord` alone; safe, since no port can
carry such a word. -/
inductive DecodeError where
  /-- The width is that of neither format: OS has 96 bits, SC has 34 (in whole bytes, 40). -/
  | noSuchFormat
  /-- The word has a bit above the format's last wire. -/
  | bitAboveFormat
  deriving DecidableEq, Repr

/-! ## Fields -/

/-- `op`, bits 33:32 of the header (R62). -/
def opField (cmd : Header) : BitVec 2 := cmd.extractLsb' 32 2

/-- `arg`, bits 31:0 of the header (R62). -/
def argField (cmd : Header) : Word := cmd.extractLsb' 0 32

/-- `os_seed`, bits 31:0 of the fixed part (R61). -/
def osSeedField (fixed : OsFixed) : Word := fixed.extractLsb' 0 32

/-- `os_len`, bits 95:32 of the fixed part (R61). -/
def osLenField (fixed : OsFixed) : Count := fixed.extractLsb' 32 64

/-- All four codes are assigned: 00 INIT, 01 APPEND, 10 FINAL, 11 RESET (R64). -/
def opOf (code : BitVec 2) : Op :=
  if code = 0b00#2 then .init
  else if code = 0b01#2 then .append
  else if code = 0b10#2 then .final
  else .reset

/-- The first `n` bytes of a data port (R61, R63): bytes at or beyond `n` are ignored, bytes not listed are 0. -/
def portBytes (n : Nat) (data : List Byte) : List Byte :=
  data.take n ++ List.replicate (n - data.length) 0

/-! ## Decoding -/

/-- Format SC (R62 to R65): `op` alone decides the operation; `arg` is the seed of INIT and the byte count of APPEND,
and is ignored for FINAL and RESET (R67). -/
def decodeSd (c : SdCommand) : Instr :=
  match opOf (opField c.cmd) with
  | .init => .init (argField c.cmd)
  | .append => .append (portBytes (argField c.cmd).toNat c.data)
  | .final => .final
  | .reset => .reset

/-- Format OS (R61): there is no opcode; every request is XXH32 (R64). -/
def decodeOs (r : OsRequest) : Instr :=
  .xxh32 (osSeedField r.fixed) (portBytes (osLenField r.fixed).toNat r.data)

/-- Decoding is total (R67). -/
def decode : Request → Instr
  | .sd c => decodeSd c
  | .os r => decodeOs r

/-- The request whose fixed part is the number `w` of `nbits` bits, with no data byte listed.
An SC header may be counted as its 34 bits or in whole bytes, as 40 (log entry 8). -/
def requestOfWord (nbits w : Nat) : Except DecodeError Request :=
  if nbits = 96 then
    if w < 2 ^ 96 then .ok (.os ⟨BitVec.ofNat 96 w, []⟩) else .error .bitAboveFormat
  else if 34 ≤ nbits ∧ nbits ≤ 40 then
    if w < 2 ^ 34 then .ok (.sd ⟨BitVec.ofNat 34 w, []⟩) else .error .bitAboveFormat
  else .error .noSuchFormat

/-- The instruction the decoder reads from a word numbered as spec/opcode_table.json numbers it. -/
def decodeTableWord (nbits w : Nat) : Option Instr :=
  match requestOfWord nbits w with
  | .ok r => some (decode r)
  | .error _ => none

/-! ## Encoding -/

/-- A header from its two fields: `op` in bits 33:32, `arg` in bits 31:0 (R62). -/
def header (code : BitVec 2) (arg : Word) : Header := code ++ arg

/-- The fixed part of an OS request: `os_len` in bits 95:32, `os_seed` in bits 31:0 (R61). -/
def osFixed (len : Count) (seed : Word) : OsFixed := len ++ seed

/-- The port image of an instruction (R61 to R65). The ignored `arg` of FINAL and RESET is written 0
(DESIGN CHOICE, log entry 9). -/
def encode : Instr → Request
  | .xxh32 seed data => .os ⟨osFixed (BitVec.ofNat 64 data.length) seed, data⟩
  | .init seed => .sd ⟨header 0b00#2 seed, []⟩
  | .append chunk => .sd ⟨header 0b01#2 (BitVec.ofNat 32 chunk.length), chunk⟩
  | .final => .sd ⟨header 0b10#2 0, []⟩
  | .reset => .sd ⟨header 0b11#2 0, []⟩

/-- The payload length a request announces in its fixed part: a decoder knows it from the header alone (R68). -/
def Request.payloadLength : Request → Nat
  | .sd c =>
    match opOf (opField c.cmd) with
    | .init => 0
    | .append => (argField c.cmd).toNat
    | .final => 0
    | .reset => 0
  | .os r => (osLenField r.fixed).toNat

/-! ## The opcode map as match and mask -/

/-- One row of the opcode map over the 34-bit header (R64). -/
structure OpRow where
  op : Op
  pattern : Header
  mask : Header
  deriving DecidableEq, Repr

/-- The rows of R64. -/
def opRows : List OpRow :=
  [⟨.init, 0x000000000#34, 0x300000000#34⟩, ⟨.append, 0x100000000#34, 0x300000000#34⟩,
   ⟨.final, 0x200000000#34, 0x300000000#34⟩, ⟨.reset, 0x300000000#34, 0x300000000#34⟩]

/-- A row selects a header when its masked bits equal the pattern (R64). -/
def OpRow.selects (row : OpRow) (cmd : Header) : Bool := decide (cmd &&& row.mask = row.pattern)

end Sys2Proof
end

