-- ==== Sys2Proof/Machine/Flags.lean ====
section
/-! DEFINITION. There are no flags (R28 of 10_state.md). The one comparison on a data-dependent value, `n >= 16`
(R93), stands in their place: it selects the merge path of FINISH. -/

namespace Sys2Proof.Machine

/-- The path selector of FINISH: `n >= 16`, unsigned, on all 64 bits of the length (R28, R92, D8, D20). -/
def mergePath (n : Count) : Bool := decide (16#64 ≤ n)

/-- A carried partial block is completed by a chunk: the first test of APPEND (R111). -/
def completesCarried (carry chunk : List Byte) : Bool :=
  decide (0 < carry.length) && decide (16 ≤ carry.length + chunk.length)

end Sys2Proof.Machine
end

