-- ==== Sys2Proof/Config.lean ====
section
/-! DEFINITION. What an implementation fixes: the two OPEN port capacities of table R7, and the one value the spec
leaves open, an OS output sampled before it has settled. -/

namespace Sys2Proof

/-- The OPEN parameters of table R7 (00_scope.md), which "the model takes as an argument".
They travel in `State` and no step changes them, so a statement about every state is about every value of them. -/
structure Params where
  /-- MAX_LEN: the most input bytes the OS data port carries (R7, D4). `os_len` has 64 bits, so no request can use a
  capacity of 2^64 bytes or more, and the type leaves such capacities out. -/
  maxLen : Fin (2 ^ 64)
  /-- MAX_CHUNK: the most payload bytes one APPEND carries, at most 2^32 - 1 (R7, D7). -/
  maxChunk : Fin (2 ^ 32)
  deriving DecidableEq, Repr

/-- MAX_CHUNK is "at least 1" (table R7). -/
def Params.wf (p : Params) : Bool := decide (1 ≤ p.maxChunk.val)

/-- The largest capacities the formats can name.
DESIGN CHOICE (log entry 1, unsafe): the spec leaves both OPEN; reset uses these so that no request is refused. -/
def Params.largest : Params := ⟨⟨2 ^ 64 - 1, by decide⟩, ⟨2 ^ 32 - 1, by decide⟩⟩

/-- The value on `os_digest` while the OS inputs are changing or have not settled: "any value" (U14 of
93_implementation_defined.md). A free value, one for each such sample (log entry 4). -/
opaque Config.unsettledDigest : Nat → Word

end Sys2Proof
end

