-- ==== Sys2Proof/Machine/Operands.lean ====
section
/-! DEFINITION. How operands are formed and read: byte sequences (R12, R42 of 20_memory.md), lengths (R65), and the
port envelope (R159, U7). -/

namespace Sys2Proof.Machine

/-- `zext_32(b)`: the u32 of the same numeric value (R11); never sign-extended (R42). -/
def zext32 (b : Byte) : Word := b.setWidth 32

/-- `trunc_32(n)`: `n mod 2^32` (R11). -/
def trunc32 (n : Count) : Word := n.setWidth 32

/-- Byte `i` of a sequence. No rule reads at or beyond the length; the value 0 there is never used (log entry 10). -/
def byteAt (S : List Byte) (i : Nat) : Byte := S.getD i 0

/-- `MemRead(S, off, 1)` (R12, R42). -/
def readByte (S : List Byte) (off : Nat) : Word := zext32 (byteAt S off)

/-- `le32(S, off) = MemRead(S, off, 4)`: the little-endian word of four bytes (R42). -/
def le32 (S : List Byte) (off : Nat) : Word :=
  zext32 (byteAt S off) + 0x100#32 * zext32 (byteAt S (off + 1)) +
    0x10000#32 * zext32 (byteAt S (off + 2)) + 0x1000000#32 * zext32 (byteAt S (off + 3))

/-- `MemWrite(CARRY, off, n, bytes)`: n bytes stored from position `off`, and the fill level becomes `off + n`
(R12, R41). -/
def memWrite (carry : List Byte) (off n : Nat) (bytes : List Byte) : List Byte :=
  carry.take off ++ bytes.take n

/-- The canonical form of CARRY between commands: 0 to 15 bytes (R23, R25). -/
def carryWf (carry : List Byte) : Bool := decide (carry.length ≤ 15)

/-- The length of a byte sequence as a 64-bit count: `os_len` used whole, the APPEND length zero-extended (R65). -/
def lengthOf (S : List Byte) : Count := BitVec.ofNat 64 S.length

/-- The APPEND is within the port: `n <= MAX_CHUNK` (R63, R159). -/
def chunkFits (p : Params) (chunk : List Byte) : Bool := decide (chunk.length ≤ p.maxChunk.val)

/-- The OS request is within the port: `n <= MAX_LEN` (R61, R159). -/
def dataFits (p : Params) (data : List Byte) : Bool := decide (data.length ≤ p.maxLen.val)

end Sys2Proof.Machine
end

