-- ==== Sys2Proof/Machine/Mixing.lean ====
section
/-! DEFINITION. The mixing primitives both blocks are built from (R80 to R95 of 40_mixing_primitives.md): total,
stateless functions that raise nothing (R95). `+`, `-`, `*` on `Word` wrap modulo 2^32 (R11, R93). -/

namespace Sys2Proof.Machine

/-! ## Constants (R80) -/

def prime1 : Word := 0x9E3779B1#32
def prime2 : Word := 0x85EBCA77#32
def prime3 : Word := 0xC2B2AE3D#32
def prime4 : Word := 0x27D4EB2F#32
def prime5 : Word := 0x165667B1#32

/-- `rotl32(a, r)` for `0 < r < 32`: `((a * 2^r) mod 2^32) + floor(a / 2^(32 - r))` (R11). -/
def rotl32 (a : Word) (r : Nat) : Word := (a <<< r) + (a >>> (32 - r))

/-- LANEINIT(seed) (R82). -/
def laneInit (seed : Word) : Lanes :=
  { v0 := seed + prime1 + prime2, v1 := seed + prime2, v2 := seed, v3 := seed - prime1 }

/-- ROUND(acc, w) (R83): advances one lane by one word. -/
def laneRound (acc w : Word) : Word := rotl32 (acc + w * prime2) 13 * prime1

/-- BLOCK(v, B) (R84): word k of the block goes to lane k (R43). -/
def block (v : Lanes) (B : List Byte) : Lanes :=
  { v0 := laneRound v.v0 (le32 B 0), v1 := laneRound v.v1 (le32 B 4),
    v2 := laneRound v.v2 (le32 B 8), v3 := laneRound v.v3 (le32 B 12) }

/-- The first `q` blocks of `S`, mixed in stream order: the block loops of XXH32 (R100) and APPEND (R111). -/
def mixBlocks : Nat → Lanes → List Byte → Lanes
  | 0, v, _ => v
  | q + 1, v, S => mixBlocks q (block v (S.take 16)) (S.drop 16)

/-- MERGE(v) (R85). -/
def merge (v : Lanes) : Word := rotl32 v.v0 1 + rotl32 v.v1 7 + rotl32 v.v2 12 + rotl32 v.v3 18

/-- SMALLINIT(seed) (R86). -/
def smallInit (seed : Word) : Word := seed + prime5

/-- ADDLEN(acc, n) (R87): only the low 32 bits of the length enter. -/
def addLen (acc : Word) (n : Count) : Word := acc + trunc32 n

/-- TAILWORD(acc, w) (R88). -/
def tailWord (acc w : Word) : Word := rotl32 (acc + w * prime3) 17 * prime4

/-- TAILBYTE(acc, b) (R89), the byte already zero-extended. -/
def tailByte (acc b : Word) : Word := rotl32 (acc + b * prime5) 11 * prime1

/-- TAIL(acc, T) (R90): every full word in increasing offset, then every remaining byte. -/
def tail (acc : Word) (T : List Byte) : Word :=
  let nw := T.length / 4
  let words := (List.range nw).foldl (fun a i => tailWord a (le32 T (4 * i))) acc
  (List.range (T.length - 4 * nw)).foldl (fun a j => tailByte a (readByte T (4 * nw + j))) words

/-- AVALANCHE(acc) (R91); the shifts are logical. -/
def avalanche (acc : Word) : Word :=
  let a1 := acc ^^^ (acc >>> 15)
  let a2 := a1 * prime2
  let a3 := a2 ^^^ (a2 >>> 13)
  let a4 := a3 * prime3
  a4 ^^^ (a4 >>> 16)

/-- FINISH(seed, v, n, T) (R92): the comparison takes all of `n`, the addition its low 32 bits, and the avalanche
runs once (C2 of 90_conflicts.md). -/
def finish (seed : Word) (v : Lanes) (n : Count) (T : List Byte) : Word :=
  avalanche (tail (addLen (if mergePath n then merge v else smallInit seed) n) T)

end Sys2Proof.Machine
end

