-- ==== Sys2Proof/Machine/State.lean ====
section
/-! DEFINITION. The state of the machine, as plain data (R20 to R33 of 10_state.md), the inputs the host presents, the
ways a step can stop, and the state after hardware reset (R32, R150). -/

namespace Sys2Proof.Machine

/-- The whole architectural state: the digest context of SD (table R20). OS has none (R20, R33).
CARRY_LEN is the length of `carry` (R23). -/
structure Sd where
  /-- SEED (R21). -/
  seed : Word
  /-- V[0] to V[3] (R22). -/
  lanes : Lanes
  /-- CARRY[0..CARRY_LEN), oldest byte first (R23). -/
  carry : List Byte
  /-- LEN, counting modulo 2^64 (R24). -/
  len : Count
  deriving DecidableEq, Repr

/-- One sample of the SD port (table R60-SD). `ready` is what SD drove on `cmd_ready`; its timing is unspecified
(R161), so it comes with the sample (log entry 5). -/
structure SdPins where
  rst : Bool
  valid : Bool
  ready : Bool
  command : SdCommand
  deriving DecidableEq, Repr

/-- What the host can do to the hardware, one entry per step (R60, R152, R157; log entry 2). The inputs of an entry are
values, fixed for the step (R47), so none can express an input that changes during an operation (U13). -/
inductive Event where
  /-- The SD port, sampled between commands. -/
  | sd (pins : SdPins)
  /-- A command was accepted and `rst` rose before it completed (R152). -/
  | cut (command : SdCommand)
  /-- The OS inputs are held stable and `os_digest` is taken (R60, R100). -/
  | os (request : OsRequest)
  /-- `os_digest` is taken while the OS inputs change or have not settled (U14). -/
  | osUnsettled (request : OsRequest)
  deriving DecidableEq, Repr

/-- The state: the context of SD, and the model's own record of the port capacities, the host's inputs to come, and
what the hardware has put out. -/
structure State where
  /-- The architectural state (table R20). -/
  sd : Sd
  /-- MAX_LEN and MAX_CHUNK, constant (R7; log entry 1). -/
  params : Params
  /-- The host's inputs to come, oldest first: commands and resets in one sequence (R48, R152; log entry 2). -/
  pending : List Event
  /-- The FINAL responses delivered, oldest first (R60, R69; log entry 3). -/
  responses : List Word
  /-- The values taken from `os_digest`, oldest first (R60; log entry 3). -/
  osDigests : List Word
  /-- How many free values have been used (U14; log entry 4). -/
  freeCount : Nat
  deriving DecidableEq, Repr

/-- There is no fault: "The hardware raises no synchronous exception" (R130 of 60_exceptions.md), so a step has no
fault arm and this type has no constructor. -/
inductive Fault where
  deriving DecidableEq, Repr

/-- Why a step gives no meaning. -/
inductive Refusal where
  /-- Raised by an arm of `exec` that has no meaning yet (none is left). Safe. -/
  | notModelled (mnemonic : String)
  /-- Raised by XXH32 when os_len exceeds MAX_LEN: the request "has no meaning" (R61, U7 "refuse"). Safe. -/
  | lengthBeyondPort
  /-- Raised by APPEND when arg exceeds MAX_CHUNK: the command "has no meaning" (R63, U7 "refuse"). Safe. -/
  | chunkBeyondPort
  deriving DecidableEq, Repr

/-- The context after hardware reset, that of `INIT 0` (R32, R150). -/
def Sd.fresh : Sd := { seed := 0, lanes := laneInit 0, carry := [], len := 0 }

/-- The machine right after reset (R32, R150): nothing presented yet, nothing put out. -/
def State.reset : State :=
  { sd := Sd.fresh, params := Params.largest, pending := [], responses := [], osDigests := [], freeCount := 0 }

end Sys2Proof.Machine
end

