-- ==== Sys2Proof/Machine/Ops.lean ====
section
/-! DEFINITION. The named operations over the state: the writes an instruction may make, the hardware reset (R150 to
R153 of 70_reset_and_hazards.md), and what each input event asks for (R60, R133, R152, R157). There is no exception to
take and none to return from (R130, R134, R135). -/

namespace Sys2Proof.Machine

/-- CARRY_LEN (R23). -/
def Sd.carryLen (d : Sd) : Nat := d.carry.length

/-- Replace the digest context; only INIT, APPEND, RESET and the hardware reset write it (table R20). -/
def State.setSd (s : State) (d : Sd) : State := { s with sd := d }

/-- Deliver one response on `rsp_digest`, after the earlier ones (R69). -/
def State.respond (s : State) (digest : Word) : State := { s with responses := s.responses ++ [digest] }

/-- The host takes one value from `os_digest` (R60). -/
def State.sampleOs (s : State) (digest : Word) : State := { s with osDigests := s.osDigests ++ [digest] }

/-- The host takes a value from `os_digest` before it has settled: any value (U14). -/
def State.sampleUnsettled (s : State) : State :=
  { s with osDigests := s.osDigests ++ [Config.unsettledDigest s.freeCount], freeCount := s.freeCount + 1 }

/-- The remaining inputs, once one has been taken. -/
def State.withPending (s : State) (events : List Event) : State := { s with pending := events }

/-- Hardware reset: the state of `INIT 0`; responses already delivered stay delivered (R150, R152). -/
def hardwareReset (s : State) : State := s.setSd { seed := 0, lanes := laneInit 0, carry := [], len := 0 }

/-- A command is accepted when `cmd_valid` and `cmd_ready` are both 1 and `rst` is 0 (R60, R157). -/
def SdPins.accepts (p : SdPins) : Bool := p.valid && p.ready && !p.rst

/-- What one event asks of the machine. -/
inductive Action where
  /-- Nothing happens (R9, R134). -/
  | hold
  /-- The hardware reset. -/
  | reset
  /-- A request is carried out. -/
  | run (i : Instr)
  /-- An unsettled output is taken. -/
  | sampleUnsettled
  deriving DecidableEq, Repr

/-- `rst` wins over a presented command (R133) and discards an unfinished one whole (R152); a command that is not
accepted has no effect (R134, R157); accepted inputs are decoded as sampled (R62). -/
def Event.action : Event → Action
  | .sd pins => if pins.rst then .reset else if pins.accepts then .run (decodeSd pins.command) else .hold
  | .cut _ => .reset
  | .os request => .run (decodeOs request)
  | .osUnsettled _ => .sampleUnsettled

/-- The next input and the state without it; none when the host presents nothing. -/
def State.fetch (s : State) : Option (Event × State) :=
  match s.pending with
  | [] => none
  | e :: rest => some (e, s.withPending rest)

/-- The event by which a host presents a request and the hardware accepts it. -/
def Request.event : Request → Event
  | .sd c => .sd { rst := false, valid := true, ready := true, command := c }
  | .os r => .os r

/-- The event by which a host presents an instruction. -/
def eventOf (i : Instr) : Event := Request.event (encode i)

/-- The event RST of R70: `rst` is 1 and no command is presented. -/
def rstEvent : Event := .sd { rst := true, valid := false, ready := false, command := ⟨0, []⟩ }

end Sys2Proof.Machine
end

