-- ==== Sys2Proof/Machine/OneShot.lean ====
section
/-! DEFINITION. The one-shot block OS (R100 to R107 of 41_one_shot.md). -/

namespace Sys2Proof.Machine

/-- XXH32(seed, DATA) (R100): LANEINIT, every full block in order, then FINISH with the tail. -/
def xxh32 (seed : Word) (data : List Byte) : Word :=
  let nb := data.length / 16
  finish seed (mixBlocks nb (laneInit seed) data) (lengthOf data) (data.drop (16 * nb))

/-- XXH32: the digest appears on `os_digest` and is taken by the host; SD is untouched (R2, R103). A request beyond
the port is refused (R61, U7). -/
def execXxh32 (seed : Word) (data : List Byte) (s : State) : Host.Outcome State Fault Refusal :=
  if dataFits s.params data then .next (s.sampleOs (xxh32 seed data)) else .refused .lengthBeyondPort

end Sys2Proof.Machine
end

