-- ==== Sys2Proof/Machine/Streaming.lean ====
section
/-! DEFINITION. The four commands of the streaming block SD (R110 to R119 of 42_streaming.md). -/

namespace Sys2Proof.Machine

/-! ## The commands on the digest context -/

/-- Construct(seed) (R110). -/
def Sd.construct (seed : Word) : Sd := { seed := seed, lanes := laneInit seed, carry := [], len := 0 }

/-- The loop and the final store of APPEND (R111): whole blocks straight from `rest`, then what is left over is stored
at position CARRY_LEN of the carry buffer. -/
def Sd.absorb (d : Sd) (rest : List Byte) : Sd :=
  let q := rest.length / 16
  { d with
    lanes := mixBlocks q d.lanes rest
    carry := memWrite d.carry d.carryLen (rest.length - 16 * q) (rest.drop (16 * q)) }

/-- Append(chunk) (R111), in the document's order: count the bytes, complete a carried partial block, then `absorb`. -/
def Sd.append (chunk : List Byte) (d : Sd) : Sd :=
  let counted := { d with len := d.len + lengthOf chunk }
  if completesCarried d.carry chunk then
    let k := 16 - d.carryLen
    { counted with lanes := block d.lanes (d.carry ++ chunk.take k), carry := [] }.absorb (chunk.drop k)
  else counted.absorb chunk

/-- Finalize() (R112): a function of the context, which it does not change. -/
def Sd.digest (d : Sd) : Word := finish d.seed d.lanes d.len d.carry

/-- Reset() (R113): the seed is retained. -/
def Sd.restart (d : Sd) : Sd := { d with lanes := laneInit d.seed, carry := [], len := 0 }

/-! ## The meanings -/

/-- INIT (R110): legal in every state; no response. -/
def execInit (seed : Word) (s : State) : Host.Outcome State Fault Refusal := .next (s.setSd (Sd.construct seed))

/-- APPEND (R111): no response; a chunk beyond the port is refused (R63, U7). -/
def execAppend (chunk : List Byte) (s : State) : Host.Outcome State Fault Refusal :=
  if chunkFits s.params chunk then .next (s.setSd (s.sd.append chunk)) else .refused .chunkBeyondPort

/-- FINAL (R112): one response, no state written. -/
def execFinal (s : State) : Host.Outcome State Fault Refusal := .next (s.respond s.sd.digest)

/-- RESET (R113): no response. -/
def execReset (s : State) : Host.Outcome State Fault Refusal := .next (s.setSd s.sd.restart)

end Sys2Proof.Machine
end

