-- ==== Sys2Proof/Machine/Dispatch.lean ====
section
/-! DEFINITION. One arm per row of spec/opcode_table.json. -/

namespace Sys2Proof.Machine

def exec (i : Instr) (s : State) : Host.Outcome State Fault Refusal :=
  match i with
  | .xxh32 seed data => Sys2Proof.Machine.execXxh32 seed data s
  | .init seed => Sys2Proof.Machine.execInit seed s
  | .append chunk => Sys2Proof.Machine.execAppend chunk s
  | .final => Sys2Proof.Machine.execFinal s
  | .reset => Sys2Proof.Machine.execReset s

end Sys2Proof.Machine
end

