-- ==== Sys2Proof/Machine/Step.lean ====
section
/-! DEFINITION. One step: the next input the host presents is taken and carried out completely (R8, R48). With no input
nothing changes (R9). -/

namespace Sys2Proof.Machine

/-- Carry out what an event asks for. -/
def perform (a : Action) (s : State) : Host.Outcome State Fault Refusal :=
  match a with
  | .hold => .next s
  | .reset => .next (hardwareReset s)
  | .run i => exec i s
  | .sampleUnsettled => .next s.sampleUnsettled

/-- The step of the machine (R8, R9). -/
def step (s : State) : Host.Outcome State Fault Refusal :=
  match s.fetch with
  | none => .next s
  | some (e, s') => perform e.action s'

/-- The word presented as the very next accepted request (log entry 2); a word of no format changes nothing. -/
def State.withFetchWord (s : State) (nbits w : Nat) : State :=
  match requestOfWord nbits w with
  | .ok r => s.withPending (Request.event r :: s.pending)
  | .error _ => s

end Sys2Proof.Machine
end

