-- ==== Sys2Proof/Machine/Lines.lean ====
section
/-! DEFINITION. The written form of command sequences: one command per line, and the encoding of a line (R70, D24). -/

namespace Sys2Proof.Machine

/-- A line: a command, or RST for a hardware reset event (R70). -/
inductive Line where
  | command (i : Instr)
  | rst
  deriving DecidableEq, Repr

/-- The event a line stands for (R70). -/
def Line.event : Line → Event
  | .command i => eventOf i
  | .rst => rstEvent

/-- One hexadecimal digit, in capitals as 95_test_vectors.md writes them. -/
def hexDigit (d : Nat) : Char := if d < 10 then Char.ofNat (48 + d) else Char.ofNat (55 + d)

/-- The last `k` hexadecimal digits of a number, most significant first. -/
def hexDigits : Nat → Nat → List Char
  | 0, _ => []
  | k + 1, n => hexDigits k (n / 16) ++ [hexDigit (n % 16)]

/-- A 32-bit number as `0x` and eight digits (R70; the spelling is DESIGN CHOICE, log entry 11). -/
def wordText (w : Word) : List Char := '0' :: 'x' :: hexDigits 8 w.toNat

/-- Data as `hex:` and two digits per byte in stream order (R70). -/
def hexData (data : List Byte) : List Char :=
  'h' :: 'e' :: 'x' :: ':' :: data.flatMap fun b => hexDigits 2 b.toNat

/-- Data as a quoted ASCII string (R70). R70 gives no escape and no form for a byte that is a quote mark, a control code or
0x80 and above; that every byte stands as the character of its number, unescaped, is this model's choice (DESIGN CHOICE, log
entry 16). -/
def quotedData (data : List Byte) : List Char := '"' :: data.map (fun b => Char.ofNat b.toNat) ++ ['"']

/-- The text of a line, its data in the form `form` (`hexData` or `quotedData`) (R70). -/
def Line.text (form : List Byte → List Char) : Line → List Char
  | .command (.xxh32 seed data) => ['X', 'X', 'H', '3', '2', ' '] ++ wordText seed ++ [',', ' '] ++ form data
  | .command (.init seed) => ['I', 'N', 'I', 'T', ' '] ++ wordText seed
  | .command (.append chunk) => ['A', 'P', 'P', 'E', 'N', 'D', ' '] ++ form chunk
  | .command .final => ['F', 'I', 'N', 'A', 'L']
  | .command .reset => ['R', 'E', 'S', 'E', 'T']
  | .rst => ['R', 'S', 'T']

/-- The text of a FINAL with the digest it gave (R70). -/
def finalText (digest : Word) : List Char := ['F', 'I', 'N', 'A', 'L', ' ', '-', '>', ' '] ++ wordText digest

/-- The encoding of a line of SD: its 34-bit header as 9 hexadecimal digits, and for APPEND the payload bytes in
stream order (R70). RST has no header, and a line of OS is no header of SD. -/
def Line.encoding : Line → Option (List Char × List Byte)
  | .rst => none
  | .command i =>
    match encode i with
    | .sd c => some (hexDigits 9 c.cmd.toNat, c.data)
    | .os _ => none

end Sys2Proof.Machine
end

