-- ==== Sys2Proof/Machine/Pseudo.lean ====
section
/-! DEFINITION. The pseudo-operations and their expansions (R71, R101). -/

namespace Sys2Proof.Machine

/-- `checksum32Seed(data, seed)` is `XXH32 seed, data` (R71, R101). -/
def checksum32Seed (data : List Byte) (seed : Word) : Instr := .xxh32 seed data

/-- `checksum32(data)` is `XXH32 0, data`: os_seed tied to 0 (R71, D21). -/
def checksum32 (data : List Byte) : Instr := .xxh32 0 data

/-- `newDigest(seed)` is `INIT seed`; with the seed left out it is `INIT 0` (R71). -/
def newDigest (seed : Word := 0) : Instr := .init seed

/-- Consecutive pieces of at most `cap` bytes, in order; `fuel` bounds how many. R71 does not say how long each piece is, and
R122 makes every cut equivalent; that each piece but the last has exactly `cap` bytes is this model's choice (DESIGN CHOICE,
log entry 15). -/
def pieces (cap : Nat) : Nat → List Byte → List (List Byte)
  | 0, _ => []
  | fuel + 1, data =>
    if data.length ≤ cap then [data] else data.take cap :: pieces cap fuel (data.drop cap)

/-- An append of a chunk longer than MAX_CHUNK is a sequence of APPENDs of consecutive pieces, in order (R71, R63). -/
def longAppend (p : Params) (data : List Byte) : List Instr :=
  (pieces p.maxChunk.val (data.length + 1) data).map Instr.append

/-- There is no NOP command; an APPEND of no byte serves as one (R71, R116). -/
def nop : Instr := .append []

end Sys2Proof.Machine
end

