-- ==== Sys2Proof/Safety.lean ====
section
/-! DEFINITION. What the claims mean by a legal state and by a run: the invariants of R25, and instructions carried out
one after another. -/

namespace Sys2Proof.Machine

/-- The bytes `S[off .. off + n)` of a sequence (R12). -/
def slice (S : List Byte) (off n : Nat) : List Byte := (S.drop off).take n

/-- The digest context after a stream: R25 gives SEED, V, CARRY and LEN as functions of the seed and of the bytes
appended since the last initialisation. -/
def Sd.ofStream (seed : Word) (stream : List Byte) : Sd :=
  let nb := stream.length / 16
  { seed := seed
    lanes := (List.range nb).foldl (fun v j => block v (slice stream (16 * j) 16)) (laneInit seed)
    carry := stream.drop (16 * nb)
    len := BitVec.ofNat 64 stream.length }

/-- One byte appended: "append one byte to the carry, and when it holds 16 bytes mix them and empty it" (R115). -/
def Sd.appendByte (d : Sd) (b : Byte) : Sd :=
  let c := d.carry ++ [b]
  if c.length = 16 then { d with lanes := block d.lanes c, carry := [], len := d.len + 1 }
  else { d with carry := c, len := d.len + 1 }

/-- Every reachable context is that of some stream (R25). -/
def Sd.FromStream (d : Sd) : Prop := ∃ stream, d = Sd.ofStream d.seed stream

/-- `CARRY_LEN = LEN mod 16`, even after LEN has wrapped (R25); so CARRY_LEN is 0 to 15. -/
def Sd.wf (d : Sd) : Bool := decide (d.carryLen = d.len.toNat % 16)

/-- A legal state: the carry buffer in its form (R23, R25) and port capacities as table R7 bounds them. -/
def State.wf (s : State) : Bool := s.sd.wf && carryWf s.sd.carry && s.params.wf

/-- The instruction is within the port envelope (R159). -/
def inEnvelope (p : Params) : Instr → Bool
  | .xxh32 _ data => dataFits p data
  | .init _ => true
  | .append chunk => chunkFits p chunk
  | .final => true
  | .reset => true

/-- `rotl32` on the integers, as R11 writes it. -/
def rotlNat (a r : Nat) : Nat := a * 2 ^ r % 2 ^ 32 + a / 2 ^ (32 - r)

/-- A command that feeds or reads a stream within the port: an APPEND that fits, or a FINAL. -/
def streamCommand (p : Params) : Instr → Bool
  | .append chunk => chunkFits p chunk
  | .final => true
  | .xxh32 _ _ => false
  | .init _ => false
  | .reset => false

/-- Carry out instructions in order (R48), stopping at the first that has no meaning. -/
def execAll : List Instr → State → Host.Outcome State Fault Refusal
  | [], s => .next s
  | i :: rest, s =>
    match exec i s with
    | .next s' => execAll rest s'
    | .fault f => .fault f
    | .refused r => .refused r

/-- `k` steps, stopping at the first that has no meaning: the host's `Core.run` on this machine. -/
def stepMany : Nat → State → Host.Outcome State Fault Refusal
  | 0, s => .next s
  | k + 1, s =>
    match step s with
    | .next s' => stepMany k s'
    | .fault f => .fault f
    | .refused r => .refused r

/-- The sixteen hexadecimal digits, each at its value. -/
def hexAlphabet : List Char := ['0', '1', '2', '3', '4', '5', '6', '7', '8', '9', 'A', 'B', 'C', 'D', 'E', 'F']

/-- The number that hexadecimal digits write, most significant first. -/
def hexNumber (digits : List Char) : Nat := digits.foldl (fun n ch => 16 * n + hexAlphabet.idxOf ch) 0

/-- The event has the machine carry out the instruction. -/
def Event.runs (e : Event) (i : Instr) : Prop := e.action = .run i

end Sys2Proof.Machine
end

