-- ==== Sys2Proof/Certificates/Slice0/Obligations.lean ====
section
/-! DEFINITION. The statements for the provers. Each docstring names the rule or the sentence of spec/ it formalises; where
that is a decision or an inference the spec marks as its own, or a choice of this model, it says so. -/

open Sys2Proof Sys2Proof.Machine

/-! ## Requests and their encodings -/

/-- R64, R62, R61 written out on the words of 95_test_vectors.md (the bit positions are the spec's own decisions D3, D5). -/
def Obligations.HeadersOfTheTestVectorsDecode : Prop :=
  decodeSd ⟨0x0000005BF#34, []⟩ = .init 0x000005BF ∧
  decodeSd ⟨0x100000003#34, [0x61, 0x62, 0x63]⟩ = .append [0x61, 0x62, 0x63] ∧
  decodeSd ⟨0x212345678#34, []⟩ = .final ∧
  decodeSd ⟨0x3FFFFFFFF#34, []⟩ = .reset ∧
  decodeOs ⟨0x000000000000000300000000#96, [0x61, 0x62, 0x63]⟩ = .xxh32 0 [0x61, 0x62, 0x63]

/-- R61 to R65: every well-formed instruction is read back from its port image, with every operand at every value the
format admits (the formats are the spec's own decisions D3, D5, D7). -/
def Obligations.DecodeReadsBackEveryEncoding : Prop :=
  ∀ i : Instr, i.wf = true → decode (encode i) = i

/-- The other direction, where each word has one meaning: a request whose port lists exactly the announced payload, and whose
`arg` is 0 where `arg` is ignored, is the encoding of what it decodes to, so no bit of it is dropped (R61, R62, R63; that
FINAL and RESET ignore `arg` is decision D6, and that the encoder writes 0 there is this model's choice, log entry 9). -/
def Obligations.EncodeRestoresEveryCanonicalRequest : Prop :=
  (∀ c : SdCommand, c.cmd &&& 0x300000000#34 = 0x000000000#34 → c.data = [] → encode (decodeSd c) = .sd c) ∧
  (∀ c : SdCommand, c.cmd &&& 0x300000000#34 = 0x100000000#34 → c.data.length = c.cmd.toNat % 2 ^ 32 →
    encode (decodeSd c) = .sd c) ∧
  (∀ c : SdCommand, c.cmd = 0x200000000#34 ∨ c.cmd = 0x300000000#34 → c.data = [] → encode (decodeSd c) = .sd c) ∧
  (∀ r : OsRequest, r.data.length = r.fixed.toNat / 2 ^ 32 → encode (decodeOs r) = .os r)

/-- R67: every header decodes to exactly one of the four commands and `cmd[33:32]` alone decides which; FINAL and RESET
ignore `arg`; every `arg` is a legal seed of INIT; every `arg` up to MAX_CHUNK is a legal length of APPEND; every OS
request with `os_len <= MAX_LEN` is legal. -/
def Obligations.EveryHeaderIsExactlyOneCommand : Prop :=
  (∀ c : SdCommand,
    (c.cmd &&& 0x300000000#34 = 0x000000000#34 ∧ decodeSd c = .init (BitVec.ofNat 32 c.cmd.toNat)) ∨
    (c.cmd &&& 0x300000000#34 = 0x100000000#34 ∧
      ∃ chunk, decodeSd c = .append chunk ∧ chunk.length = c.cmd.toNat % 2 ^ 32) ∨
    (c.cmd &&& 0x300000000#34 = 0x200000000#34 ∧ decodeSd c = .final) ∨
    (c.cmd &&& 0x300000000#34 = 0x300000000#34 ∧ decodeSd c = .reset)) ∧
  (∀ (c : SdCommand) (s : State),
    (c.cmd &&& 0x300000000#34 = 0x100000000#34 → c.cmd.toNat % 2 ^ 32 ≤ s.params.maxChunk.val) →
      ∃ t, exec (decodeSd c) s = .next t) ∧
  (∀ (r : OsRequest) (s : State), r.fixed.toNat / 2 ^ 32 ≤ s.params.maxLen.val →
      ∃ t, exec (decodeOs r) s = .next t)

/-- The rows of R64, as match and mask: exactly one row selects a header, and it names the operation the decoder takes
(the codes are the spec's own decision D5). -/
def Obligations.OpcodeRowsAgreeWithDecoder : Prop :=
  ∀ cmd : Header, opRows.filter (fun row => row.selects cmd) = opRows.filter (fun row => row.op == opOf (opField cmd)) ∧
    (opRows.filter (fun row => row.selects cmd)).length = 1

/-- R63: the payload of an APPEND header with `arg = n` is bytes 0 to n - 1 of the port in stream order, later bytes of
the port are ignored, n = 0 carries none, and n above MAX_CHUNK has no meaning: it is refused (U7). The clause for every
`i < n` also covers port bytes that the list `data` does not reach: that those read as 0 is no part of R63 but this model's
choice (log entry 7, DESIGN CHOICE, unsafe). -/
def Obligations.AppendPayloadIsTheFirstPortBytes : Prop :=
  ∀ (n : Word) (data : List Byte), ∃ chunk : List Byte,
    decodeSd ⟨0b01#2 ++ n, data⟩ = .append chunk ∧ chunk.length = n.toNat ∧
    (∀ i < n.toNat, chunk.getD i 0 = data.getD i 0) ∧
    (∀ more : List Byte, n.toNat ≤ data.length → decodeSd ⟨0b01#2 ++ n, data ++ more⟩ = .append chunk) ∧
    (n = 0 → chunk = []) ∧
    (∀ s : State, s.params.maxChunk.val < n.toNat → exec (.append chunk) s = .refused .chunkBeyondPort)

/-- R61: an OS request is seed in bits 31:0, length n in bits 95:32, and bytes 0 to n - 1 of the port; later bytes are
ignored; n above MAX_LEN has no meaning: it is refused (U7). The clause for every `i < n` also covers port bytes that the
list `data` does not reach: that those read as 0 is no part of R61 but this model's choice (log entry 7, DESIGN CHOICE,
unsafe). -/
def Obligations.OneShotRequestIsSeedLengthAndBytes : Prop :=
  ∀ (n : Count) (seed : Word) (data : List Byte), ∃ bytes : List Byte,
    decodeOs ⟨n ++ seed, data⟩ = .xxh32 seed bytes ∧ bytes.length = n.toNat ∧
    (∀ i < n.toNat, bytes.getD i 0 = data.getD i 0) ∧
    (∀ more : List Byte, n.toNat ≤ data.length → decodeOs ⟨n ++ seed, data ++ more⟩ = .xxh32 seed bytes) ∧
    (∀ s : State, s.params.maxLen.val < n.toNat → exec (.xxh32 seed bytes) s = .refused .lengthBeyondPort)

/-! ## The step -/

/-- R8, R60, R62: an accepted command runs as sampled, and a step at the OS port runs the one-shot request, each on the
state without that input (the input list is this model's choice, log entry 2). -/
def Obligations.StepRunsTheAcceptedRequest : Prop :=
  (∀ (s : State) (c : SdCommand) (rest : List Event),
    s.pending = .sd ⟨false, true, true, c⟩ :: rest → step s = exec (decodeSd c) { s with pending := rest }) ∧
  (∀ (s : State) (r : OsRequest) (rest : List Event),
    s.pending = .os r :: rest → step s = exec (decodeOs r) { s with pending := rest })

/-- A well-formed instruction that the host presents is the one the next step runs (log entry 2). -/
def Obligations.PresentedInstructionRuns : Prop :=
  ∀ (s : State) (i : Instr) (rest : List Event), i.wf = true → s.pending = eventOf i :: rest →
    step s = exec i { s with pending := rest }

/-- A word placed where the step takes its next request runs as the instruction the decoder reads from it (log entries 2
and 8). -/
def Obligations.FetchWordRunsItsInstruction : Prop :=
  ∀ (s : State) (nbits w : Nat) (i : Instr), decodeTableWord nbits w = some i →
    step (s.withFetchWord nbits w) = exec i s

/-- R9 and R157(a) and R134: with no input, and with a command that is not accepted while `rst` is 0, nothing changes but
that the sample is over (the handshake is the spec's own decision D13; the sample of `cmd_ready` is log entry 5). -/
def Obligations.UnacceptedCommandChangesNothing : Prop :=
  (∀ s : State, s.pending = [] → step s = .next s) ∧
  (∀ (s : State) (pins : SdPins) (rest : List Event), s.pending = .sd pins :: rest → pins.rst = false →
    (pins.valid && pins.ready) = false → step s = .next { s with pending := rest })

/-- R150 and R133 (the spec's own decisions D10, D12): with `rst` at 1 the state becomes that of INIT 0, whatever command
is presented with it; responses already delivered stay delivered; and the state after reset is that state. -/
def Obligations.HardwareResetLeavesTheDefaultContext : Prop :=
  (∀ (s : State) (pins : SdPins) (rest : List Event), s.pending = .sd pins :: rest → pins.rst = true →
    step s = .next { s with
      pending := rest
      sd := ⟨0x00000000, ⟨0x24234428, 0x85EBCA77, 0x00000000, 0x61C8864F⟩, [], 0⟩ }) ∧
  State.reset.sd = ⟨0x00000000, ⟨0x24234428, 0x85EBCA77, 0x00000000, 0x61C8864F⟩, [], 0⟩ ∧
  State.reset.pending = [] ∧ State.reset.responses = []

/-- R152 (the spec's own decision D12): a command cut by `rst` is discarded whole, with no response, whichever it is. -/
def Obligations.CutCommandIsDiscardedWhole : Prop :=
  ∀ (s : State) (c : SdCommand) (rest : List Event), s.pending = .cut c :: rest →
    step s = .next { s with
      pending := rest
      sd := ⟨0x00000000, ⟨0x24234428, 0x85EBCA77, 0x00000000, 0x61C8864F⟩, [], 0⟩ }

/-- U14: `os_digest` taken before it has settled is any value; nothing else happens. The value is a free one, and the
statement holds for every value of the counter (log entry 4). -/
def Obligations.UnsettledOutputIsAFreeValue : Prop :=
  ∀ (s : State) (r : OsRequest) (rest : List Event), s.pending = .osUnsettled r :: rest →
    step s = .next { s with
      pending := rest
      osDigests := s.osDigests ++ [Config.unsettledDigest s.freeCount]
      freeCount := s.freeCount + 1 }

/-- R130: a step raises no fault, and the only requests it refuses are those outside the port's envelope (U7). -/
def Obligations.OnlyTheEnvelopeIsRefused : Prop :=
  (∀ (s : State) (f : Fault), step s ≠ .fault f) ∧
  ∀ (s : State) (r : Refusal), step s = .refused r ↔
    ∃ e rest, s.pending = e :: rest ∧
      ((∃ seed data, e.runs (.xxh32 seed data) ∧ s.params.maxLen.val < data.length ∧ r = .lengthBeyondPort) ∨
       (∃ chunk, e.runs (.append chunk) ∧ s.params.maxChunk.val < chunk.length ∧ r = .chunkBeyondPort))

/-! ## Bytes and arithmetic -/

/-- R42: `S[off]` is bits 7:0 of the word and `S[off+3]` bits 31:24; a single byte is zero-extended. -/
def Obligations.WordsAreLittleEndian : Prop :=
  (∀ (S : List Byte) (off : Nat), off + 4 ≤ S.length →
    (le32 S off).toNat = (S.getD off 0).toNat + 2 ^ 8 * (S.getD (off + 1) 0).toNat +
      2 ^ 16 * (S.getD (off + 2) 0).toNat + 2 ^ 24 * (S.getD (off + 3) 0).toNat ∧
    ∀ j < 4, ∀ b < 8, (le32 S off).getLsbD (8 * j + b) = (S.getD (off + j) 0).getLsbD b) ∧
  (∀ (S : List Byte) (off : Nat), off < S.length → (readByte S off).toNat = (S.getD off 0).toNat) ∧
  le32 [0x00, 0x01, 0x02, 0x03] 0 = 0x03020100

/-- R11 on `rotl32`: it is the integer formula, and bit i moves to bit `(i + r) mod 32`. -/
def Obligations.RotationMovesEachBit : Prop :=
  ∀ (a : Word) (r : Nat), 0 < r → r < 32 →
    (rotl32 a r).toNat = rotlNat a.toNat r ∧
    ∀ i < 32, (rotl32 a r).getLsbD ((i + r) % 32) = a.getLsbD i

/-- R82: the four start values, pairwise different for every seed, and the worked examples. -/
def Obligations.LaneInitGivesTheStartValues : Prop :=
  (∀ seed : Word,
    (laneInit seed).v0.toNat = (seed.toNat + 0x9E3779B1 + 0x85EBCA77) % 2 ^ 32 ∧
    (laneInit seed).v1.toNat = (seed.toNat + 0x85EBCA77) % 2 ^ 32 ∧
    (laneInit seed).v2 = seed ∧
    (laneInit seed).v3.toNat = (seed.toNat + (2 ^ 32 - 0x9E3779B1)) % 2 ^ 32 ∧
    [(laneInit seed).v0, (laneInit seed).v1, (laneInit seed).v2, (laneInit seed).v3].Nodup) ∧
  laneInit 0 = ⟨0x24234428, 0x85EBCA77, 0x00000000, 0x61C8864F⟩ ∧
  laneInit 1471 = ⟨0x242349E7, 0x85EBD036, 0x000005BF, 0x61C88C0E⟩ ∧
  laneInit 0xFFFFFFFF = ⟨0x24234427, 0x85EBCA76, 0xFFFFFFFF, 0x61C8864E⟩

/-- R83: ROUND on the integers, its zero, its two bijections, and the worked examples. -/
def Obligations.RoundIsTheIntegerFormula : Prop :=
  (∀ acc w : Word, (laneRound acc w).toNat =
    rotlNat ((acc.toNat + w.toNat * 0x85EBCA77) % 2 ^ 32) 13 * 0x9E3779B1 % 2 ^ 32) ∧
  laneRound 0 0 = 0 ∧
  (∀ w : Word, Function.Bijective fun acc => laneRound acc w) ∧
  (∀ acc : Word, Function.Bijective fun w => laneRound acc w) ∧
  laneRound 0x24234428 0x03020100 = 0xF817BCCB ∧ laneRound 0 1 = 0x8DF8C7AD ∧
  laneRound 0xFFFFFFFF 0xFFFFFFFF = 0xD3CFBEA2

/-- R84: lane k is advanced by word k of the block and sees only bytes 4k to 4k + 3; ROUND does not commute with itself on
different words; the worked example. -/
def Obligations.BlockAdvancesEachLaneByItsWord : Prop :=
  (∀ (v : Lanes) (B : List Byte), B.length = 16 →
    block v B = ⟨laneRound v.v0 (le32 (slice B 0 4) 0), laneRound v.v1 (le32 (slice B 4 4) 0),
      laneRound v.v2 (le32 (slice B 8 4) 0), laneRound v.v3 (le32 (slice B 12 4) 0)⟩) ∧
  (∃ acc w w' : Word, laneRound (laneRound acc w) w' ≠ laneRound (laneRound acc w') w) ∧
  block (laneInit 0) ((List.range 16).map (BitVec.ofNat 8)) = ⟨0xF817BCCB, 0x0222719B, 0xD4B0C0A4, 0xDEBB7574⟩

/-- R85: MERGE on the integers, its corner cases and the worked example. -/
def Obligations.MergeIsTheIntegerFormula : Prop :=
  (∀ v : Lanes, (merge v).toNat =
    (rotlNat v.v0.toNat 1 + rotlNat v.v1.toNat 7 + rotlNat v.v2.toNat 12 + rotlNat v.v3.toNat 18) % 2 ^ 32) ∧
  merge ⟨0, 0, 0, 0⟩ = 0 ∧ merge ⟨1, 1, 1, 1⟩ = 0x00041082 ∧
  merge ⟨0x80000000, 0x80000000, 0x80000000, 0x80000000⟩ = 0x00020841 ∧
  merge ⟨0xF817BCCB, 0x0222719B, 0xD4B0C0A4, 0xDEBB7574⟩ = 0xE3460F50

/-- R86 and R87: SMALLINIT and ADDLEN on the integers; only the low 32 bits of the length enter; the worked examples. -/
def Obligations.StartValueAndLengthAddWrap : Prop :=
  (∀ seed : Word, (smallInit seed).toNat = (seed.toNat + 0x165667B1) % 2 ^ 32) ∧
  (∀ (acc : Word) (n : Count), (addLen acc n).toNat = (acc.toNat + n.toNat) % 2 ^ 32) ∧
  (∀ (acc : Word) (m n : Count), m.toNat % 2 ^ 32 = n.toNat % 2 ^ 32 → addLen acc m = addLen acc n) ∧
  smallInit 0 = 0x165667B1 ∧ smallInit 1471 = 0x16566D70 ∧ smallInit 0xFFFFFFFF = 0x165667B0 ∧
  addLen 0x165667B1 0 = 0x165667B1 ∧ addLen 0x165667B1 5 = 0x165667B6 ∧ addLen 0xFFFFFFFF 1 = 0x00000000 ∧
  addLen 0x165667B1 4294967301 = 0x165667B6

/-- R88 and R89: TAILWORD and TAILBYTE on the integers, their corner cases and the worked examples. -/
def Obligations.TailStepsAreTheIntegerFormulas : Prop :=
  (∀ acc w : Word, (tailWord acc w).toNat =
    rotlNat ((acc.toNat + w.toNat * 0xC2B2AE3D) % 2 ^ 32) 17 * 0x27D4EB2F % 2 ^ 32) ∧
  (∀ (acc : Word) (b : Byte), (tailByte acc (zext32 b)).toNat =
    rotlNat ((acc.toNat + b.toNat * 0x165667B1) % 2 ^ 32) 11 * 0x9E3779B1 % 2 ^ 32) ∧
  tailWord 0 0 = 0 ∧ tailWord 0 1 = 0x38C5348B ∧ tailWord 0x165667B6 0x64636261 = 0x4B855207 ∧
  tailWord 0xFFFFFFFF 0xFFFFFFFF = 0x9F65E046 ∧
  tailByte 0 (zext32 0) = 0 ∧ (∀ acc : Word, tailByte acc (zext32 0) = rotl32 acc 11 * 0x9E3779B1) ∧
  tailByte 0 (zext32 1) = 0x3D65A512 ∧ tailByte 0x165667B2 (zext32 0x61) = 0x6506CBE8 ∧
  tailByte 0xFFFFFFFF (zext32 0xFF) = 0x4B5AD200

/-- R90: a tail of four bytes or more gives its first word and then the rest; a shorter one gives its bytes in order; an
empty one nothing; the worked examples. -/
def Obligations.TailTakesWordsThenBytes : Prop :=
  (∀ acc : Word, tail acc [] = acc) ∧
  (∀ (acc : Word) (a b c d : Byte) (rest : List Byte),
    tail acc (a :: b :: c :: d :: rest) = tail (tailWord acc (le32 [a, b, c, d] 0)) rest) ∧
  (∀ (acc : Word) (T : List Byte), T.length < 4 →
    tail acc T = T.foldl (fun a b => tailByte a (zext32 b)) acc) ∧
  tail 0x165667B6 [0x61, 0x62, 0x63, 0x64, 0x65] = 0xCD1D741C ∧ tail 0x165667B4 [0x61, 0x62, 0x63] = 0x760A1E67

/-- R91: AVALANCHE by its five stages on the integers (its exclusive ors and logical shifts those of Nat), its fixed point,
its bijection, and the worked examples. -/
def Obligations.AvalancheIsTheIntegerFormula : Prop :=
  (∀ acc : Word,
    let a1 := acc.toNat ^^^ acc.toNat / 2 ^ 15
    let a2 := a1 * 0x85EBCA77 % 2 ^ 32
    let a3 := a2 ^^^ a2 / 2 ^ 13
    let a4 := a3 * 0xC2B2AE3D % 2 ^ 32
    (avalanche acc).toNat = a4 ^^^ a4 / 2 ^ 16) ∧
  avalanche 0 = 0 ∧ Function.Bijective avalanche ∧
  avalanche 0x165667B1 = 0x02CC5D05 ∧ avalanche 1 = 0x606D18A8 ∧ avalanche 0xFFFFFFFF = 0x0173FB23

/-- R94, an inference the spec marks as its own: the inverses of the constants, the bijections, and that MERGE is not
injective. -/
def Obligations.MixingStepsAreInvertible : Prop :=
  (prime1 * 0x0E8B2F51 = 1 ∧ prime2 * 0xB6C92F47 = 1 ∧ prime3 * 0xA89ED915 = 1 ∧ prime4 * 0xA0FE3BCF = 1 ∧
    prime5 * 0xAE398151 = 1) ∧
  (∀ r, 0 < r → r < 32 → Function.Bijective fun a : Word => rotl32 a r) ∧
  (∀ k, 0 < k → k < 32 → Function.Bijective fun x : Word => x ^^^ (x >>> k)) ∧
  (∀ w : Word, Function.Bijective fun acc => tailWord acc w) ∧
  (∀ acc : Word, Function.Bijective fun w => tailWord acc w) ∧
  (∀ b : Byte, Function.Bijective fun acc => tailByte acc (zext32 b)) ∧
  (∀ n : Count, Function.Bijective fun acc => addLen acc n) ∧
  ¬Function.Injective merge

/-- R92 and D20: FINISH compares all 64 bits of the length and adds its low 32; on the short path the lanes are not read,
on the merge path the seed is not; the worked examples (D20 is the spec's own decision). -/
def Obligations.FinishReadsLanesOrSeed : Prop :=
  (∀ (seed : Word) (v w : Lanes) (n : Count) (T : List Byte), n.toNat < 16 → finish seed v n T = finish seed w n T) ∧
  (∀ (seed seed' : Word) (v : Lanes) (n : Count) (T : List Byte), 16 ≤ n.toNat →
    finish seed v n T = finish seed' v n T) ∧
  finish 0 (laneInit 0) 0 [] = 0x02CC5D05 ∧
  finish 0 ⟨0xF817BCCB, 0x0222719B, 0xD4B0C0A4, 0xDEBB7574⟩ 16 [] = 0xB72837F4 ∧
  finish 0 ⟨0xF817BCCB, 0x0222719B, 0xD4B0C0A4, 0xDEBB7574⟩ 4294967296 [] = 0xFA7DD086

/-! ## The one-shot block -/

/-- R100: XXH32 within the port completes, and the digest it gives is LANEINIT, every full block in increasing order, then
FINISH by the document's steps; nothing else changes; the worked examples. -/
def Obligations.OneShotGivesTheDigest : Prop :=
  (∀ (seed : Word) (data : List Byte) (s : State), data.length ≤ s.params.maxLen.val →
    exec (.xxh32 seed data) s = .next { s with osDigests := s.osDigests ++ [
      avalanche (tail
        ((if 16 ≤ data.length then
            merge ((List.range (data.length / 16)).foldl (fun v j => block v (slice data (16 * j) 16)) (laneInit seed))
          else seed + 0x165667B1) + BitVec.ofNat 32 data.length)
        (data.drop (16 * (data.length / 16))))] }) ∧
  xxh32 0 [] = 0x02CC5D05 ∧ xxh32 0 [0x61, 0x62, 0x63] = 0x32D153FF ∧
  xxh32 0 ((List.range 20).map (BitVec.ofNat 8)) = 0x828B819C

/-- R102, an inference the spec marks as its own, over what XXH32 does: lane k takes in block j the word at position
`16*j + 4*k`, the tail takes the words from `16*nb` on and then its bytes, the digest is made of these reads alone, byte i of
a word is the byte at its position plus i, and the positions read, in the order of the reads, are 0 to n - 1, each once.
(R100 defines XXH32 for n below 2^64.) -/
def Obligations.EachInputByteIsReadOnce : Prop :=
  ∀ (seed : Word) (data : List Byte),
    let n := data.length
    let nb := n / 16
    let nw := n % 16 / 4
    let lanes := fun j => mixBlocks j (laneInit seed) data
    (∀ P, P + 4 ≤ n → ∀ i < 4, ∀ b < 8, (le32 data P).getLsbD (8 * i + b) = (data.getD (P + i) 0).getLsbD b) ∧
    lanes 0 = laneInit seed ∧
    (∀ j < nb, lanes (j + 1) =
      ⟨laneRound (lanes j).v0 (le32 data (16 * j)), laneRound (lanes j).v1 (le32 data (16 * j + 4)),
        laneRound (lanes j).v2 (le32 data (16 * j + 8)), laneRound (lanes j).v3 (le32 data (16 * j + 12))⟩) ∧
    (n < 2 ^ 64 → xxh32 seed data = avalanche
      ((List.range (n % 4)).foldl (fun a r => tailByte a (zext32 (data.getD (16 * nb + 4 * nw + r) 0)))
        ((List.range nw).foldl (fun a q => tailWord a (le32 data (16 * nb + 4 * q)))
          (addLen (if 16 ≤ n then merge (lanes nb) else smallInit seed) (BitVec.ofNat 64 n))))) ∧
    ((List.range nb).flatMap fun j => (List.range 4).flatMap fun k => (List.range 4).map fun i => 16 * j + 4 * k + i) ++
      ((List.range nw).flatMap fun q => (List.range 4).map fun i => 16 * nb + 4 * q + i) ++
      ((List.range (n % 4)).map fun r => 16 * nb + 4 * nw + r) = List.range n

/-- R106, an inference the spec marks as its own: on an input shorter than 16 bytes XXH32 is a bijection of the seed. -/
def Obligations.ShortInputsSeparateSeeds : Prop :=
  ∀ data : List Byte, data.length < 16 → Function.Bijective fun seed => xxh32 seed data

/-- R2, R20, R49, R103: an event at the OS port leaves SD and its responses as they are, an event at the SD port leaves
the OS samples as they are, and what XXH32 gives does not depend on the state. -/
def Obligations.TheTwoBlocksShareNothing : Prop :=
  (∀ (s t : State) (e : Event) (rest : List Event) (r : OsRequest), s.pending = e :: rest →
    e = .os r ∨ e = .osUnsettled r → step s = .next t → t.sd = s.sd ∧ t.responses = s.responses) ∧
  (∀ (s t : State) (e : Event) (rest : List Event), s.pending = e :: rest →
    ((∃ pins, e = .sd pins) ∨ ∃ c, e = .cut c) → step s = .next t →
      t.osDigests = s.osDigests ∧ t.freeCount = s.freeCount) ∧
  (∀ (seed : Word) (data : List Byte) (s s' t t' : State), exec (.xxh32 seed data) s = .next t →
    exec (.xxh32 seed data) s' = .next t' → t.osDigests.getLast? = t'.osDigests.getLast?)

/-! ## The streaming block -/

/-- R110: INIT completes in every state and leaves the context of its seed, whatever was appended before; nothing else
changes; INIT followed by RESET leaves the same state; no other command changes SEED; the worked example. (The rule's
remark that INIT is a construction, not a change of seed, is decision D11 and adds nothing to the effect stated here.) -/
def Obligations.InitConstructsTheContext : Prop :=
  (∀ (seed : Word) (s : State),
    exec (.init seed) s = .next { s with
      sd := ⟨seed, ⟨seed + 0x9E3779B1 + 0x85EBCA77, seed + 0x85EBCA77, seed, seed - 0x9E3779B1⟩, [], 0⟩ } ∧
    execAll [.init seed, .reset] s = exec (.init seed) s) ∧
  (∀ (i : Instr) (s t : State), exec i s = .next t → t.sd.seed ≠ s.sd.seed → i = .init t.sd.seed) ∧
  Sd.construct 0x000005BF = ⟨0x000005BF, ⟨0x242349E7, 0x85EBD036, 0x000005BF, 0x61C88C0E⟩, [], 0⟩

/-- R111: APPEND within the port completes in every state whose carry buffer is in its form; SEED is kept, LEN gains n
modulo 2^64, a carried block that the chunk completes is mixed first, then whole blocks of the chunk, and the rest is
stored behind what the buffer holds; nothing else changes; the worked examples. -/
def Obligations.AppendFollowsTheDocument : Prop :=
  (∀ (chunk : List Byte) (s : State), s.sd.carry.length ≤ 15 → chunk.length ≤ s.params.maxChunk.val →
    let c := s.sd.carry.length
    let whole := fun (v : Lanes) (rest : List Byte) =>
      (List.range (rest.length / 16)).foldl (fun v j => block v (slice rest (16 * j) 16)) v
    ∃ d : Sd, exec (.append chunk) s = .next { s with sd := d } ∧ d.seed = s.sd.seed ∧
      d.len.toNat = (s.sd.len.toNat + chunk.length) % 2 ^ 64 ∧ d.carry.length ≤ 15 ∧
      (0 < c → 16 ≤ c + chunk.length →
        d.lanes = whole (block s.sd.lanes (s.sd.carry ++ chunk.take (16 - c))) (chunk.drop (16 - c)) ∧
        d.carry = (chunk.drop (16 - c)).drop (16 * ((chunk.length - (16 - c)) / 16))) ∧
      (0 < c → c + chunk.length < 16 → d.lanes = s.sd.lanes ∧ d.carry = s.sd.carry ++ chunk) ∧
      (c = 0 → d.lanes = whole s.sd.lanes chunk ∧ d.carry = chunk.drop (16 * (chunk.length / 16)))) ∧
  Sd.append ((List.range 10).map (BitVec.ofNat 8)) (Sd.construct 0) =
    ⟨0, ⟨0x24234428, 0x85EBCA77, 0x00000000, 0x61C8864F⟩, (List.range 10).map (BitVec.ofNat 8), 10⟩ ∧
  (Sd.append ((List.range' 10 10).map (BitVec.ofNat 8))
      (Sd.append ((List.range 10).map (BitVec.ofNat 8)) (Sd.construct 0)) =
    ⟨0, ⟨0xF817BCCB, 0x0222719B, 0xD4B0C0A4, 0xDEBB7574⟩, [0x10, 0x11, 0x12, 0x13], 20⟩)

/-- R115, an inference the spec marks as its own: APPEND, its closed form over `CARRY ++ CHUNK`, and appending byte by byte
give the same state. -/
def Obligations.ThreeWaysToAppendAgree : Prop :=
  ∀ (d : Sd) (chunk : List Byte), d.carry.length ≤ 15 →
    let S := d.carry ++ chunk
    let q := S.length / 16
    d.append chunk =
        { d with
          lanes := (List.range q).foldl (fun v j => block v (slice S (16 * j) 16)) d.lanes
          carry := S.drop (16 * q)
          len := d.len + BitVec.ofNat 64 chunk.length } ∧
      d.append chunk = chunk.foldl Sd.appendByte d

/-- R116: an APPEND of no byte is accepted and changes no state, so that it serves as a NOP. -/
def Obligations.EmptyAppendChangesNothing : Prop :=
  ∀ s : State, s.sd.carry.length ≤ 15 → exec (.append []) s = .next s

/-- R112: FINAL completes in every state, responds with the digest of the context by the merge path or the short path,
and changes nothing else; the worked examples. -/
def Obligations.FinalRespondsWithTheDigest : Prop :=
  (∀ s : State, exec .final s = .next { s with responses := s.responses ++ [
    avalanche (tail
      ((if 16 ≤ s.sd.len.toNat then merge s.sd.lanes else s.sd.seed + 0x165667B1) + BitVec.ofNat 32 s.sd.len.toNat)
      s.sd.carry)] }) ∧
  Sd.digest ⟨0, ⟨0xF817BCCB, 0x0222719B, 0xD4B0C0A4, 0xDEBB7574⟩, [0x10, 0x11, 0x12, 0x13], 20⟩ = 0x828B819C ∧
  (Sd.construct 0).digest = 0x02CC5D05

/-- R113: RESET completes in every state, keeps SEED and leaves what INIT of it leaves; twice is the same as once; on a
fresh context it changes nothing; nothing else changes; the worked example. -/
def Obligations.ResetRestoresTheFreshContext : Prop :=
  (∀ s : State,
    exec .reset s = .next { s with
      sd := ⟨s.sd.seed, ⟨s.sd.seed + 0x9E3779B1 + 0x85EBCA77, s.sd.seed + 0x85EBCA77, s.sd.seed,
        s.sd.seed - 0x9E3779B1⟩, [], 0⟩ } ∧
    exec .reset s = exec (.init s.sd.seed) s ∧
    execAll [.reset, .reset] s = exec .reset s) ∧
  (∀ s t : State, exec (.init s.sd.seed) s = .next t → exec .reset t = .next t) ∧
  (Sd.append [0x61, 0x62, 0x63] (Sd.construct 0x000005BF)).restart =
    ⟨0x000005BF, ⟨0x242349E7, 0x85EBD036, 0x000005BF, 0x61C88C0E⟩, [], 0⟩

/-- R123: in a state with SEED = s, whatever follows RESET gives what it gives after INIT s. -/
def Obligations.ResetIsAFreshConstruction : Prop :=
  ∀ (s : State) (later : List Instr), execAll (.reset :: later) s = execAll (.init s.sd.seed :: later) s

/-- R124 and R118: any number of FINALs in a row gives the same digest each time, and a FINAL anywhere leaves the context
that later commands see. -/
def Obligations.FinalizeIsStable : Prop :=
  ∀ (s : State) (k : Nat),
    execAll (List.replicate k .final) s = .next { s with responses := s.responses ++ List.replicate k s.sd.digest }

/-- R114, R119, R130: every instruction within the port envelope completes in every state, in any order, and leaves the
port capacities and the inputs to come as they are. -/
def Obligations.EveryCommandIsLegalInEveryState : Prop :=
  ∀ (prog : List Instr) (s : State), (∀ i ∈ prog, inEnvelope s.params i = true) →
    ∃ t, execAll prog s = .next t ∧ t.params = s.params ∧ t.pending = s.pending

/-! ## Laws of the whole machine -/

/-- R122: however a sequence is cut into chunks, appending them leaves the state that appending it whole leaves, and so
the digest is the same. The premise on the carry buffer is R23's, an invariant of the machine (`StepKeepsTheStateLegal`). -/
def Obligations.ChunkBoundariesDoNotMatter : Prop :=
  ∀ (s : State) (chunks : List (List Byte)), s.sd.carry.length ≤ 15 → chunks.flatten.length ≤ s.params.maxChunk.val →
    execAll (chunks.map .append) s = exec (.append chunks.flatten) s ∧
    execAll (chunks.map .append ++ [.final]) s = execAll [.append chunks.flatten, .final] s

/-- R120: INIT s, one APPEND of b, FINAL responds XXH32(s, b). (A chunk within MAX_CHUNK is shorter than 2^64.) -/
def Obligations.OneAppendEqualsOneShot : Prop :=
  ∀ (s : State) (seed : Word) (b : List Byte), b.length ≤ s.params.maxChunk.val →
    ∃ t, execAll [.init seed, .append b, .final] s = .next t ∧ t.responses = s.responses ++ [xxh32 seed b]

/-- R121 and R118, inferences the spec marks as its own, over steps of the machine: after INIT s, or a RESET in a state
whose SEED is s, or a hardware reset with s = 0, any APPENDs within the port and FINALs in any order, whose bytes b are
fewer than 2^64, and then a FINAL: every step completes and the last response is XXH32(s, b). -/
def Obligations.StreamingEqualsOneShot : Prop :=
  ∀ (s : State) (seed : Word) (start : Event) (prog : List Instr) (later : List Event),
    start = eventOf (.init seed) ∨ (start = eventOf .reset ∧ s.sd.seed = seed) ∨ (start = rstEvent ∧ seed = 0) →
    (∀ i ∈ prog, streamCommand s.params i = true) →
    (prog.flatMap Instr.payload).length < 2 ^ 64 →
    s.pending = start :: (prog.map eventOf ++ eventOf .final :: later) →
    ∃ t : State, stepMany (prog.length + 2) s = .next t ∧
      t.responses.getLast? = some (xxh32 seed (prog.flatMap Instr.payload)) ∧
      t.pending = later ∧ t.params = s.params

/-- R71: an append longer than MAX_CHUNK is a sequence of APPENDs that all fit, carry the same bytes in order, and leave
the state that the whole would leave (MAX_CHUNK is at least 1, table R7). -/
def Obligations.LongAppendIsPieces : Prop :=
  ∀ (s : State) (data : List Byte), s.params.wf = true → s.sd.carry.length ≤ 15 →
    (∀ i ∈ longAppend s.params data, ∃ piece, i = .append piece ∧ piece.length ≤ s.params.maxChunk.val) ∧
    (longAppend s.params data).flatMap Instr.payload = data ∧
    execAll (longAppend s.params data) s = .next { s with sd := s.sd.append data }

/-- R71 and R101: the pseudo-operations by what they do. That the hardware reset leaves the state of INIT 0, which the clause
on `newDigest` without a seed uses, is R150, the spec's own decision D10. -/
def Obligations.PseudoOperationsExpand : Prop :=
  ∀ s : State,
    exec newDigest s = .next (hardwareReset s) ∧
    (∀ seed, exec (newDigest seed) s = exec (.init seed) s) ∧
    (∀ data, exec (checksum32 data) s = exec (checksum32Seed data 0) s) ∧
    (∀ data seed, data.length ≤ s.params.maxLen.val →
      exec (checksum32Seed data seed) s = .next { s with osDigests := s.osDigests ++ [xxh32 seed data] }) ∧
    (s.sd.carry.length ≤ 15 → exec nop s = .next s)

/-- R25 and R23 over every step: `CARRY_LEN = LEN mod 16` and 0 to 15, even after LEN has wrapped, and the port capacities
stay as table R7 bounds them (R25's statements are inferences the spec marks as its own). -/
def Obligations.StepKeepsTheStateLegal : Prop :=
  ∀ s t : State, s.wf = true → step s = .next t → t.wf = true

/-- The state after reset is legal, and its context is that of seed 0 and the empty stream (the port capacities there are this
model's choice, log entry 1). -/
def Obligations.ResetStateIsLegal : Prop :=
  State.reset.wf = true ∧ State.reset.sd = Sd.ofStream 0 [] ∧ State.reset.sd.FromStream

/-- R25, an inference the spec marks as its own, over every step: the context is the function of SEED and of the stream
that R25 gives, and APPEND extends that stream by its chunk. -/
def Obligations.ContextIsAFunctionOfTheStream : Prop :=
  (∀ s t : State, s.sd.FromStream → step s = .next t → t.sd.FromStream) ∧
  (∀ (seed : Word) (stream chunk : List Byte),
    (Sd.ofStream seed stream).append chunk = Sd.ofStream seed (stream ++ chunk)) ∧
  (∀ (seed : Word) (stream : List Byte), stream.length < 2 ^ 64 →
    (16 ≤ (Sd.ofStream seed stream).len.toNat ↔ 1 ≤ stream.length / 16))

/-- R21: SEED changes only by an INIT, to its operand, or by a hardware reset, to 0. -/
def Obligations.SeedIsWrittenByInitAndResetOnly : Prop :=
  ∀ s t : State, step s = .next t → t.sd.seed ≠ s.sd.seed →
    ∃ e rest, s.pending = e :: rest ∧ (e.runs (.init t.sd.seed) ∨ (e.action = .reset ∧ t.sd.seed = 0))

/-- R24 and R138: LEN is cleared by INIT, RESET and hardware reset, grows modulo 2^64 by the chunk length at an APPEND, and
does not change otherwise. -/
def Obligations.LenCountsAppendedBytes : Prop :=
  ∀ s t : State, step s = .next t →
    (∀ e rest, s.pending = e :: rest →
      (∀ chunk, e.runs (.append chunk) → t.sd.len.toNat = (s.sd.len.toNat + chunk.length) % 2 ^ 64) ∧
      ((∃ seed, e.runs (.init seed)) ∨ e.runs .reset ∨ e.action = .reset → t.sd.len = 0)) ∧
    (t.sd.len ≠ s.sd.len → ∃ e rest, s.pending = e :: rest ∧
      ((∃ chunk, e.runs (.append chunk)) ∨ (∃ seed, e.runs (.init seed)) ∨ e.runs .reset ∨ e.action = .reset))

/-- R22 and R111(f): outside INIT, RESET and hardware reset the lanes change only in a step that completes a block. -/
def Obligations.LanesChangeOnlyWhenABlockCompletes : Prop :=
  ∀ s t : State, step s = .next t → t.sd.lanes ≠ s.sd.lanes →
    ∃ e rest, s.pending = e :: rest ∧
      ((∃ chunk, e.runs (.append chunk) ∧ 16 ≤ s.sd.carry.length + chunk.length) ∨ (∃ seed, e.runs (.init seed)) ∨
        e.runs .reset ∨ e.action = .reset)

/-- R69: one response per FINAL, after the earlier ones; no other step responds (the response form is the spec's own
decision D14). -/
def Obligations.OnlyFinalResponds : Prop :=
  ∀ s t : State, step s = .next t →
    ((∃ e rest, s.pending = e :: rest ∧ e.runs .final) ∧ t.responses = s.responses ++ [s.sd.digest] ∧ t.sd = s.sd) ∨
    ((¬∃ e rest, s.pending = e :: rest ∧ e.runs .final) ∧ t.responses = s.responses)

/-- R158 (with the spec's own decision D8): once LEN has wrapped to below 16 the digest is the short-path value for the wrapped
length and the carry buffer, however the lanes were advanced; the counter wraps; and program 5 of 95_test_vectors.md. -/
def Obligations.WrappedLengthTakesTheShortPath : Prop :=
  (∀ (d : Sd) (v : Lanes), d.len.toNat < 16 →
    d.digest = avalanche (tail (addLen (smallInit d.seed) d.len) d.carry) ∧
    d.digest = Sd.digest { d with lanes := v }) ∧
  (∀ (d : Sd) (chunk : List Byte), (d.append chunk).len.toNat = (d.len.toNat + chunk.length) % 2 ^ 64) ∧
  (∀ d : Sd,
    d = ⟨0, ⟨0xF817BCCB, 0x0222719B, 0xD4B0C0A4, 0xDEBB7574⟩, [0, 1, 2, 3, 4, 5, 6, 7], 18446744073709551608⟩ →
    d.digest = 0xB75DA969 ∧
    d.append [8, 9, 10, 11, 12, 13, 14, 15] = ⟨0, ⟨0x466F759A, 0xC5CA0341, 0x1304685A, 0x30966FB2⟩, [], 0⟩ ∧
    (d.append [8, 9, 10, 11, 12, 13, 14, 15]).digest = 0x02CC5D05)

/-- R70 (notation, the spec's own decision D24): the encoding of a line of SD is its header as nine hexadecimal digits, whose
value in base 16 is the 34-bit number and the top one of which is 0 to 3, and the payload bytes; RST has no header. -/
def Obligations.LineEncodingIsNineDigitsAndPayload : Prop :=
  (∀ i : Instr, (∀ seed data, i ≠ .xxh32 seed data) →
    ∃ (c : SdCommand) (digits : List Char), encode i = .sd c ∧ c.data = i.payload ∧
      (Line.command i).encoding = some (digits, c.data) ∧ digits.length = 9 ∧
      (∀ ch ∈ digits, ch ∈ hexAlphabet) ∧ hexNumber digits = c.cmd.toNat ∧
      digits.head? ∈ [some '0', some '1', some '2', some '3']) ∧
  Line.rst.encoding = none
end

