-- ==== Sys2Proof/Laws/Decode.lean ====
section
/-! SUPPORT. Reading the fields back from the words the encoder makes, and the bytes of a port. -/

namespace Sys2Proof

@[simp] theorem opField_header (code : BitVec 2) (arg : Word) : opField (header code arg) = code := by
  apply BitVec.eq_of_getLsbD_eq
  intro i hi
  simp only [opField, header, BitVec.getLsbD_extractLsb', BitVec.getLsbD_append]
  simp [hi]

@[simp] theorem argField_header (code : BitVec 2) (arg : Word) : argField (header code arg) = arg := by
  apply BitVec.eq_of_getLsbD_eq
  intro i hi
  simp only [argField, header, BitVec.getLsbD_extractLsb', BitVec.getLsbD_append]
  simp [hi]

@[simp] theorem osSeedField_osFixed (len : Count) (seed : Word) : osSeedField (osFixed len seed) = seed := by
  apply BitVec.eq_of_getLsbD_eq
  intro i hi
  simp only [osSeedField, osFixed, BitVec.getLsbD_extractLsb', BitVec.getLsbD_append]
  simp [hi]

@[simp] theorem osLenField_osFixed (len : Count) (seed : Word) : osLenField (osFixed len seed) = len := by
  apply BitVec.eq_of_getLsbD_eq
  intro i hi
  simp only [osLenField, osFixed, BitVec.getLsbD_extractLsb', BitVec.getLsbD_append]
  simp [hi]

@[simp] theorem portBytes_length (n : Nat) (data : List Byte) : (portBytes n data).length = n := by
  simp [portBytes]
  omega

/-- A payload of exactly the announced length is read whole. -/
@[simp] theorem portBytes_self (data : List Byte) : portBytes data.length data = data := by
  simp [portBytes]

theorem portBytes_getD (n : Nat) (data : List Byte) (i : Nat) (h : i < n) :
    (portBytes n data).getD i 0 = data.getD i 0 := by
  simp only [portBytes, List.getD_eq_getElem?_getD, List.getElem?_append, List.length_take]
  split
  · rw [List.getElem?_take, if_pos h]
  · rw [List.getElem?_replicate, List.getElem?_eq_none (by omega)]
    split <;> rfl

end Sys2Proof
end

