-- ==== Sys2Proof/Laws/Lines.lean ====
section
/-! SUPPORT. What `hexDigits` writes: how many digits, which characters, and the number they stand for. -/

namespace Sys2Proof.Machine

@[simp] theorem hexDigits_length (k n : Nat) : (hexDigits k n).length = k := by
  induction k generalizing n with
  | zero => rfl
  | succ k ih => simp [hexDigits, ih]

/-- Each digit stands at its value in the alphabet. -/
theorem hexDigit_value : ∀ d < 16, hexDigit d ∈ hexAlphabet ∧ hexAlphabet.idxOf (hexDigit d) = d := by decide

theorem hexDigits_subset (k n : Nat) : ∀ ch ∈ hexDigits k n, ch ∈ hexAlphabet := by
  induction k generalizing n with
  | zero => simp [hexDigits]
  | succ k ih =>
    intro ch h
    rcases List.mem_append.1 (hexDigits.eq_2 n k ▸ h) with h | h
    · exact ih _ ch h
    · rw [List.mem_singleton.1 h]
      exact (hexDigit_value _ (Nat.mod_lt _ (by decide))).1

/-- The last `k` digits of `n` write `n mod 16^k`. -/
theorem hexNumber_hexDigits (k n : Nat) : hexNumber (hexDigits k n) = n % 16 ^ k := by
  induction k generalizing n with
  | zero => simp [hexDigits, hexNumber, Nat.mod_one]
  | succ k ih =>
    have h : hexNumber (hexDigits (k + 1) n) = 16 * hexNumber (hexDigits k (n / 16)) + n % 16 := by
      simp [hexNumber, hexDigits, List.foldl_append, (hexDigit_value _ (Nat.mod_lt n (by decide : 0 < 16))).2]
    rw [h, ih, Nat.pow_succ', Nat.mod_mul]
    omega

end Sys2Proof.Machine
end

