-- ==== Sys2Proof/Laws/Mixing.lean ====
section
/-! SUPPORT. Laws of the mixing primitives and of the block loop: splitting a stream at a block boundary, and the loop
of `mixBlocks` as the indexed loop the spec writes. -/

namespace Sys2Proof.Machine

/-! The constants as integers. Rewriting with these, before any literal is unfolded, keeps the kernel from comparing large
numerals by unary recursion. -/

theorem toNat_prime1 : prime1.toNat = 0x9E3779B1 := by decide
theorem toNat_prime2 : prime2.toNat = 0x85EBCA77 := by decide
theorem toNat_prime3 : prime3.toNat = 0xC2B2AE3D := by decide
theorem toNat_prime4 : prime4.toNat = 0x27D4EB2F := by decide
theorem toNat_prime5 : prime5.toNat = 0x165667B1 := by decide

@[simp] theorem mixBlocks_zero (v : Lanes) (S : List Byte) : mixBlocks 0 v S = v := rfl

theorem mixBlocks_succ (q : Nat) (v : Lanes) (S : List Byte) :
    mixBlocks (q + 1) v S = mixBlocks q (block v (S.take 16)) (S.drop 16) := rfl

/-- The first `q` blocks, then `r` more from where they end. -/
theorem mixBlocks_add (q r : Nat) (v : Lanes) (S : List Byte) :
    mixBlocks (q + r) v S = mixBlocks r (mixBlocks q v S) (S.drop (16 * q)) := by
  induction q generalizing v S with
  | zero => simp
  | succ q ih =>
    rw [Nat.succ_add, mixBlocks_succ, ih, mixBlocks_succ, List.drop_drop]
    congr 2
    omega

/-- Only the bytes of the first `q` blocks are read. -/
theorem mixBlocks_append (q : Nat) (v : Lanes) (S T : List Byte) (h : 16 * q ≤ S.length) :
    mixBlocks q v (S ++ T) = mixBlocks q v S := by
  induction q generalizing v S with
  | zero => rfl
  | succ q ih =>
    have h16 : 16 ≤ S.length := by omega
    rw [mixBlocks_succ, mixBlocks_succ, List.take_append_of_le_length h16, List.drop_append_of_le_length h16,
      ih _ _ (by rw [List.length_drop]; omega)]

/-- The loop as R100 writes it: block `j` is bytes `16*j` to `16*j + 15`, in increasing `j`. -/
theorem mixBlocks_eq_indexed (q : Nat) (v : Lanes) (S : List Byte) :
    mixBlocks q v S = (List.range q).foldl (fun v j => block v (slice S (16 * j) 16)) v := by
  induction q with
  | zero => rfl
  | succ q ih =>
    rw [mixBlocks_add, ih, List.range_succ, List.foldl_append]
    rfl

theorem mergePath_iff (n : Count) : mergePath n = true ↔ 16 ≤ n.toNat := by
  simp [mergePath, BitVec.le_def]

theorem toNat_lengthOf (S : List Byte) : (lengthOf S).toNat = S.length % 2 ^ 64 := by
  simp [lengthOf]

@[simp] theorem lengthOf_nil : lengthOf [] = 0 := rfl

theorem lengthOf_append (S T : List Byte) : lengthOf (S ++ T) = lengthOf S + lengthOf T := by
  simp [lengthOf, BitVec.ofNat_add]

theorem finish_merge (seed : Word) (v : Lanes) (n : Count) (T : List Byte) (h : 16 ≤ n.toNat) :
    finish seed v n T = avalanche (tail (addLen (merge v) n) T) := by
  rw [finish, if_pos ((mergePath_iff n).2 h)]

theorem finish_short (seed : Word) (v : Lanes) (n : Count) (T : List Byte) (h : n.toNat < 16) :
    finish seed v n T = avalanche (tail (addLen (smallInit seed) n) T) := by
  rw [finish, if_neg (by rw [mergePath_iff]; omega)]

end Sys2Proof.Machine
end

