-- ==== Sys2Proof/Laws/PerInstr.lean ====
section
/-! SUPPORT. The family AnnouncedLength: the fixed part of a well-formed instruction's encoding announces the length of
its payload (R61, R62, R68). -/

namespace Sys2Proof.Laws.AnnouncedLength

def Statement (i : Instr) : Prop := i.wf = true → (encode i).payloadLength = i.payload.length

theorem xxh32 (seed : Word) (data : List Byte) : Statement (.xxh32 seed data) := by
  intro h
  have h' : data.length < 2 ^ 64 := by simpa [Instr.wf] using h
  simpa [encode, Request.payloadLength, Instr.payload] using h'

theorem init (seed : Word) : Statement (.init seed) := by
  intro _
  simp [encode, Request.payloadLength, Instr.payload, opOf]

theorem append (chunk : List Byte) : Statement (.append chunk) := by
  intro h
  have h' : chunk.length < 2 ^ 32 := by simpa [Instr.wf] using h
  simpa [encode, Request.payloadLength, Instr.payload, opOf] using h'

theorem final : Statement .final := by
  intro _
  simp [encode, Request.payloadLength, Instr.payload, opOf]

theorem reset : Statement .reset := by
  intro _
  simp [encode, Request.payloadLength, Instr.payload, opOf]

end Sys2Proof.Laws.AnnouncedLength
end

