-- ==== Sys2Proof/Laws/State.lean ====
section
/-! SUPPORT. What each update of the state leaves and writes, field by field; cited instead of unfolding an update.
Each is true by `rfl` once the state is taken apart. A bare `rfl` between fields of `s.setSd d` and of `s` has the kernel
compare the two states first, new lanes with old, through 32-bit numerals in unary: cite these lemmas instead. -/

namespace Sys2Proof.Machine

variable (s : State) (d : Sd) (w : Word) (events : List Event)

@[simp] theorem setSd_sd : (s.setSd d).sd = d := by cases s; rfl
@[simp] theorem setSd_params : (s.setSd d).params = s.params := by cases s; rfl
@[simp] theorem setSd_pending : (s.setSd d).pending = s.pending := by cases s; rfl
@[simp] theorem setSd_responses : (s.setSd d).responses = s.responses := by cases s; rfl
@[simp] theorem setSd_osDigests : (s.setSd d).osDigests = s.osDigests := by cases s; rfl
@[simp] theorem setSd_freeCount : (s.setSd d).freeCount = s.freeCount := by cases s; rfl

@[simp] theorem respond_sd : (s.respond w).sd = s.sd := by cases s; rfl
@[simp] theorem respond_params : (s.respond w).params = s.params := by cases s; rfl
@[simp] theorem respond_pending : (s.respond w).pending = s.pending := by cases s; rfl
@[simp] theorem respond_responses : (s.respond w).responses = s.responses ++ [w] := by cases s; rfl
@[simp] theorem respond_osDigests : (s.respond w).osDigests = s.osDigests := by cases s; rfl
@[simp] theorem respond_freeCount : (s.respond w).freeCount = s.freeCount := by cases s; rfl

@[simp] theorem sampleOs_sd : (s.sampleOs w).sd = s.sd := by cases s; rfl
@[simp] theorem sampleOs_params : (s.sampleOs w).params = s.params := by cases s; rfl
@[simp] theorem sampleOs_pending : (s.sampleOs w).pending = s.pending := by cases s; rfl
@[simp] theorem sampleOs_responses : (s.sampleOs w).responses = s.responses := by cases s; rfl
@[simp] theorem sampleOs_osDigests : (s.sampleOs w).osDigests = s.osDigests ++ [w] := by cases s; rfl
@[simp] theorem sampleOs_freeCount : (s.sampleOs w).freeCount = s.freeCount := by cases s; rfl

@[simp] theorem sampleUnsettled_sd : s.sampleUnsettled.sd = s.sd := by cases s; rfl
@[simp] theorem sampleUnsettled_params : s.sampleUnsettled.params = s.params := by cases s; rfl
@[simp] theorem sampleUnsettled_pending : s.sampleUnsettled.pending = s.pending := by cases s; rfl
@[simp] theorem sampleUnsettled_responses : s.sampleUnsettled.responses = s.responses := by cases s; rfl
@[simp] theorem sampleUnsettled_osDigests :
    s.sampleUnsettled.osDigests = s.osDigests ++ [Config.unsettledDigest s.freeCount] := by cases s; rfl
@[simp] theorem sampleUnsettled_freeCount : s.sampleUnsettled.freeCount = s.freeCount + 1 := by cases s; rfl

@[simp] theorem withPending_sd : (s.withPending events).sd = s.sd := by cases s; rfl
@[simp] theorem withPending_params : (s.withPending events).params = s.params := by cases s; rfl
@[simp] theorem withPending_pending : (s.withPending events).pending = events := by cases s; rfl
@[simp] theorem withPending_responses : (s.withPending events).responses = s.responses := by cases s; rfl
@[simp] theorem withPending_osDigests : (s.withPending events).osDigests = s.osDigests := by cases s; rfl
@[simp] theorem withPending_freeCount : (s.withPending events).freeCount = s.freeCount := by cases s; rfl

@[simp] theorem hardwareReset_sd : (hardwareReset s).sd = Sd.construct 0 := by cases s; rfl
@[simp] theorem hardwareReset_params : (hardwareReset s).params = s.params := by cases s; rfl
@[simp] theorem hardwareReset_pending : (hardwareReset s).pending = s.pending := by cases s; rfl
@[simp] theorem hardwareReset_responses : (hardwareReset s).responses = s.responses := by cases s; rfl
@[simp] theorem hardwareReset_osDigests : (hardwareReset s).osDigests = s.osDigests := by cases s; rfl
@[simp] theorem hardwareReset_freeCount : (hardwareReset s).freeCount = s.freeCount := by cases s; rfl

@[simp] theorem construct_seed : (Sd.construct w).seed = w := rfl
@[simp] theorem construct_lanes : (Sd.construct w).lanes = laneInit w := rfl
@[simp] theorem construct_carry : (Sd.construct w).carry = [] := rfl
@[simp] theorem construct_len : (Sd.construct w).len = 0 := rfl

@[simp] theorem restart_seed : d.restart.seed = d.seed := by cases d; rfl
@[simp] theorem restart_lanes : d.restart.lanes = laneInit d.seed := by cases d; rfl
@[simp] theorem restart_carry : d.restart.carry = [] := by cases d; rfl
@[simp] theorem restart_len : d.restart.len = 0 := by cases d; rfl

/-- RESET leaves the context that INIT of the kept seed leaves. -/
theorem restart_eq_construct : d.restart = Sd.construct d.seed := by cases d; rfl

end Sys2Proof.Machine
end

