-- ==== Sys2Proof/Laws/Streaming.lean ====
section
/-! SUPPORT. The spec lemmas of the store into the carry buffer, of `absorb` and of APPEND, and that each keeps the form
of the carry buffer. -/

namespace Sys2Proof.Machine

/-- A store at the fill level appends its bytes (R41). -/
theorem memWrite_at_fill (carry : List Byte) (n : Nat) (bytes : List Byte) :
    memWrite carry carry.length n bytes = carry ++ bytes.take n := by
  rw [memWrite, List.take_length]

/-- A store within the buffer keeps its form (R41: `off + n <= 15`). -/
theorem memWrite_carryWf (carry : List Byte) (off n : Nat) (bytes : List Byte) (h : off + n ≤ 15) :
    carryWf (memWrite carry off n bytes) = true := by
  simp [carryWf, memWrite]
  omega

/-- Everything `absorb` does. -/
theorem absorb_eq (d : Sd) (rest : List Byte) :
    d.absorb rest = { d with lanes := mixBlocks (rest.length / 16) d.lanes rest
                             carry := d.carry ++ rest.drop (16 * (rest.length / 16)) } := by
  rw [Sd.absorb, Sd.carryLen, memWrite_at_fill, List.take_of_length_le (by rw [List.length_drop])]

@[simp] theorem absorb_seed (d : Sd) (rest : List Byte) : (d.absorb rest).seed = d.seed := by cases d; rfl
@[simp] theorem absorb_len (d : Sd) (rest : List Byte) : (d.absorb rest).len = d.len := by cases d; rfl

theorem completesCarried_iff (carry chunk : List Byte) :
    completesCarried carry chunk = true ↔ 0 < carry.length ∧ 16 ≤ carry.length + chunk.length := by
  simp [completesCarried]

/-- APPEND when the chunk completes the carried block. -/
theorem append_completing (d : Sd) (chunk : List Byte) (h0 : 0 < d.carry.length)
    (h : 16 ≤ d.carry.length + chunk.length) :
    d.append chunk =
      Sd.absorb { d with len := d.len + lengthOf chunk
                         lanes := block d.lanes (d.carry ++ chunk.take (16 - d.carry.length)), carry := [] }
        (chunk.drop (16 - d.carry.length)) := by
  rw [Sd.append, if_pos ((completesCarried_iff _ _).2 ⟨h0, h⟩)]
  rfl

/-- APPEND when it does not. -/
theorem append_not_completing (d : Sd) (chunk : List Byte)
    (h : ¬(0 < d.carry.length ∧ 16 ≤ d.carry.length + chunk.length)) :
    d.append chunk = Sd.absorb { d with len := d.len + lengthOf chunk } chunk := by
  rw [Sd.append, if_neg (by rwa [completesCarried_iff])]

@[simp] theorem append_seed (d : Sd) (chunk : List Byte) : (d.append chunk).seed = d.seed := by
  rw [Sd.append]; split <;> simp

@[simp] theorem append_len (d : Sd) (chunk : List Byte) : (d.append chunk).len = d.len + lengthOf chunk := by
  rw [Sd.append]; split <;> simp

/-- What APPEND leaves in the carry buffer is never a full block (R111, corner case (a)). -/
theorem append_carryWf (d : Sd) (chunk : List Byte) (h : carryWf d.carry = true) :
    carryWf (d.append chunk).carry = true := by
  simp only [carryWf, decide_eq_true_eq] at *
  by_cases hc : 0 < d.carry.length ∧ 16 ≤ d.carry.length + chunk.length
  · simp only [append_completing d chunk hc.1 hc.2, absorb_eq, List.nil_append, List.length_drop]
    omega
  · simp only [append_not_completing d chunk hc, absorb_eq, List.length_append, List.length_drop]
    omega

end Sys2Proof.Machine
end

