-- ==== Sys2Proof/Laws/Step.lean ====
section
/-! SUPPORT. What each meaning and each step can do, said once: later proofs cite these and unfold neither `exec` nor
`step`. -/

namespace Sys2Proof.Machine

/-! ## The meanings -/

theorem exec_init (seed : Word) (s : State) : exec (.init seed) s = .next (s.setSd (Sd.construct seed)) := rfl

theorem exec_final (s : State) : exec .final s = .next (s.respond s.sd.digest) := rfl

theorem exec_reset (s : State) : exec .reset s = .next (s.setSd s.sd.restart) := rfl

theorem exec_append (chunk : List Byte) (s : State) (h : chunkFits s.params chunk = true) :
    exec (.append chunk) s = .next (s.setSd (s.sd.append chunk)) := if_pos h

theorem exec_append_refused (chunk : List Byte) (s : State) (h : chunkFits s.params chunk = false) :
    exec (.append chunk) s = .refused .chunkBeyondPort := if_neg (by simp [h])

theorem exec_xxh32 (seed : Word) (data : List Byte) (s : State) (h : dataFits s.params data = true) :
    exec (.xxh32 seed data) s = .next (s.sampleOs (xxh32 seed data)) := if_pos h

theorem exec_xxh32_refused (seed : Word) (data : List Byte) (s : State) (h : dataFits s.params data = false) :
    exec (.xxh32 seed data) s = .refused .lengthBeyondPort := if_neg (by simp [h])

/-- Everything an instruction can do when it answers a next state. -/
theorem exec_cases {i : Instr} {s t : State} (h : exec i s = .next t) :
    (∃ seed data, i = .xxh32 seed data ∧ dataFits s.params data = true ∧ t = s.sampleOs (xxh32 seed data)) ∨
    (∃ seed, i = .init seed ∧ t = s.setSd (Sd.construct seed)) ∨
    (∃ chunk, i = .append chunk ∧ chunkFits s.params chunk = true ∧ t = s.setSd (s.sd.append chunk)) ∨
    (i = .final ∧ t = s.respond s.sd.digest) ∨
    (i = .reset ∧ t = s.setSd s.sd.restart) := by
  cases i with
  | xxh32 seed data =>
    by_cases hf : dataFits s.params data = true
    · rw [exec_xxh32 _ _ _ hf] at h
      cases h
      exact .inl ⟨seed, data, rfl, hf, rfl⟩
    · rw [exec_xxh32_refused _ _ _ (by simpa using hf)] at h
      cases h
  | init seed =>
    cases h
    exact .inr (.inl ⟨seed, rfl, rfl⟩)
  | append chunk =>
    by_cases hf : chunkFits s.params chunk = true
    · rw [exec_append _ _ hf] at h
      cases h
      exact .inr (.inr (.inl ⟨chunk, rfl, hf, rfl⟩))
    · rw [exec_append_refused _ _ (by simpa using hf)] at h
      cases h
  | final =>
    cases h
    exact .inr (.inr (.inr (.inl ⟨rfl, rfl⟩)))
  | reset =>
    cases h
    exact .inr (.inr (.inr (.inr ⟨rfl, rfl⟩)))

/-! ## The step -/

theorem step_idle (s : State) (h : s.pending = []) : step s = .next s := by
  simp [step, State.fetch, h]

theorem step_event (s : State) (e : Event) (rest : List Event) (h : s.pending = e :: rest) :
    step s = perform e.action (s.withPending rest) := by
  simp [step, State.fetch, h]

/-- Everything a step can do when it answers a next state. -/
theorem step_cases {s t : State} (h : step s = .next t) :
    (s.pending = [] ∧ t = s) ∨
    ∃ e rest, s.pending = e :: rest ∧
      ((e.action = .hold ∧ t = s.withPending rest) ∨
       (e.action = .reset ∧ t = hardwareReset (s.withPending rest)) ∨
       (e.action = .sampleUnsettled ∧ t = (s.withPending rest).sampleUnsettled) ∨
       (∃ i, e.action = .run i ∧ exec i (s.withPending rest) = .next t)) := by
  cases hp : s.pending with
  | nil =>
    rw [step_idle s hp] at h
    cases h
    exact .inl ⟨rfl, rfl⟩
  | cons e rest =>
    rw [step_event s e rest hp] at h
    refine .inr ⟨e, rest, rfl, ?_⟩
    cases ha : e.action with
    | hold => rw [ha] at h; cases h; exact .inl ⟨rfl, rfl⟩
    | reset => rw [ha] at h; cases h; exact .inr (.inl ⟨rfl, rfl⟩)
    | sampleUnsettled => rw [ha] at h; cases h; exact .inr (.inr (.inl ⟨rfl, rfl⟩))
    | run i => rw [ha] at h; exact .inr (.inr (.inr ⟨i, rfl, h⟩))

/-! ## Running several instructions -/

@[simp] theorem execAll_nil (s : State) : execAll [] s = .next s := rfl

theorem execAll_cons_next {i : Instr} {rest : List Instr} {s t : State} (h : exec i s = .next t) :
    execAll (i :: rest) s = execAll rest t := by
  rw [execAll, h]

theorem execAll_append_next {first rest : List Instr} {s t : State} (h : execAll first s = .next t) :
    execAll (first ++ rest) s = execAll rest t := by
  induction first generalizing s with
  | nil => cases h; rfl
  | cons i first ih =>
    rw [List.cons_append]
    rw [execAll] at h ⊢
    cases hi : exec i s with
    | next s' => rw [hi] at h; exact ih h
    | fault f => rw [hi] at h; cases h
    | refused r => rw [hi] at h; cases h

end Sys2Proof.Machine
end

