-- ==== Sys2Proof/Tests/Slice0.lean ====
section
/-! SUPPORT. Tests of the model against 95_test_vectors.md and the worked examples of the rules, each on one operation or one
step, and for every statement with hypotheses a concrete state and operands that meet them. -/

namespace Sys2Proof.Tests

open Sys2Proof.Machine

/-! ## Helpers -/

/-- The state of a next outcome. -/
def nextOf : Host.Outcome State Fault Refusal → Option State
  | .next s => some s
  | .fault _ => none
  | .refused _ => none

/-- The reason of a refused outcome. -/
def refusalOf : Host.Outcome State Fault Refusal → Option Refusal
  | .next _ => none
  | .fault _ => none
  | .refused r => some r

/-- The reset state with a given context. -/
def withSd (d : Sd) : State := State.reset.setSd d

/-- The reset state with given inputs to come. -/
def withInputs (events : List Event) : State := State.reset.withPending events

/-- The reset state with ports of the given capacities. -/
def withPorts (maxLen : Fin (2 ^ 64)) (maxChunk : Fin (2 ^ 32)) : State :=
  { State.reset with params := ⟨maxLen, maxChunk⟩ }

/-- The bytes `first` to `first + n - 1` (95_test_vectors.md: `bytes i..j`). -/
def bytes (first n : Nat) : List Byte := (List.range' first n).map (BitVec.ofNat 8)

/-- The sample string S1 of 95_test_vectors.md section 1. -/
def sampleOne : List Byte :=
  [0x4C, 0x6F, 0x72, 0x65, 0x6D, 0x20, 0x69, 0x70, 0x73, 0x75, 0x6D, 0x20, 0x64, 0x6F, 0x6C, 0x6F] ++
  [0x72, 0x20, 0x73, 0x69, 0x74, 0x20, 0x61, 0x6D, 0x65, 0x74, 0x2C, 0x20, 0x63, 0x6F, 0x6E, 0x73] ++
  [0x65, 0x63, 0x74, 0x65, 0x74, 0x75, 0x65, 0x72, 0x20, 0x61, 0x64, 0x69, 0x70, 0x69, 0x73, 0x63] ++
  [0x69, 0x6E, 0x67, 0x20, 0x65, 0x6C, 0x69, 0x74, 0x2C, 0x20]

/-- The sample string S2 of 95_test_vectors.md section 1. -/
def sampleTwo : List Byte :=
  [0x73, 0x65, 0x64, 0x20, 0x64, 0x69, 0x61, 0x6D, 0x20, 0x6E, 0x6F, 0x6E, 0x75, 0x6D, 0x6D, 0x79] ++
  [0x20, 0x6E, 0x69, 0x62, 0x68, 0x20, 0x65, 0x75, 0x69, 0x73, 0x6D, 0x6F, 0x64, 0x20, 0x74, 0x69] ++
  [0x6E, 0x63, 0x69, 0x64, 0x75, 0x6E, 0x74, 0x20, 0x75, 0x74, 0x20, 0x6C, 0x61, 0x6F, 0x72, 0x65] ++
  [0x65, 0x74, 0x20, 0x64, 0x6F, 0x6C, 0x6F, 0x72, 0x65, 0x20, 0x6D, 0x61, 0x67, 0x6E, 0x61, 0x20] ++
  [0x61, 0x6C, 0x69, 0x71, 0x75, 0x61, 0x6D, 0x20, 0x65, 0x72, 0x61, 0x74, 0x20, 0x76, 0x6F, 0x6C] ++
  [0x75, 0x74, 0x70, 0x61, 0x74, 0x2E]

def freshLanes : Lanes := ⟨0x24234428, 0x85EBCA77, 0x00000000, 0x61C8864F⟩

def oneBlockLanes : Lanes := ⟨0xF817BCCB, 0x0222719B, 0xD4B0C0A4, 0xDEBB7574⟩

/-- The context from which program 5 of 95_test_vectors.md starts. -/
def beforeWrap : Sd := ⟨0, oneBlockLanes, bytes 0 8, 18446744073709551608⟩

/-- The context after K3's APPEND S1 (95_test_vectors.md section 1). -/
def afterSampleOne : Sd :=
  ⟨0, ⟨0x084FEC39, 0x3F83C0E9, 0x4355589F, 0x85742E3C⟩, [0x69, 0x6E, 0x67, 0x20, 0x65, 0x6C, 0x69, 0x74, 0x2C, 0x20], 58⟩

/-- The context after K3's APPEND S2. -/
def afterSampleTwo : Sd := ⟨0, ⟨0x230D4527, 0x32EACCDC, 0x62EE199D, 0x031FEA1E⟩, [], 144⟩

/-! ## Well-formedness: each check refuses an ill-formed term -/

theorem test_wf_refuses_long_data (data : List Byte) (h : data.length = 2 ^ 64) : (Instr.xxh32 0 data).wf = false :=
  decide_eq_false (by omega)

theorem test_wf_refuses_long_chunk (chunk : List Byte) (h : chunk.length = 2 ^ 32) : (Instr.append chunk).wf = false :=
  decide_eq_false (by omega)

/-- Ill-formed terms exist, one element beyond the field. -/
theorem test_wf_refused_terms :
    (∃ data : List Byte, (Instr.xxh32 0 data).wf = false) ∧ ∃ chunk : List Byte, (Instr.append chunk).wf = false :=
  ⟨⟨_, test_wf_refuses_long_data (List.replicate (2 ^ 64) 0) List.length_replicate⟩,
    ⟨_, test_wf_refuses_long_chunk (List.replicate (2 ^ 32) 0) List.length_replicate⟩⟩

theorem test_wf_accepts_empty_chunk : (Instr.append []).wf = true := by decide

theorem test_params_refuse_no_chunk : (Params.mk 0 0).wf = false := by decide

theorem test_carry_refuses_sixteen_bytes : carryWf (bytes 0 16) = false := by decide

theorem test_state_refuses_fill_off_length : (withSd ⟨0, freshLanes, bytes 0 1, 2⟩).wf = false := by decide

/-! ## Decoding: words written out from R61, R62, R64 -/

theorem test_decode_xxh32 : decodeTableWord 96 0x000000000000000000000000 = some (.xxh32 0 []) := by decide

theorem test_decode_xxh32_fields :
    decodeOs ⟨0x0000000000000002DEADBEEF#96, [0x61, 0x62, 0x63]⟩ = .xxh32 0xDEADBEEF [0x61, 0x62] := by decide

theorem test_decode_init : decodeTableWord 40 0x0DEADBEEF = some (.init 0xDEADBEEF) := by decide

theorem test_decode_append : decodeTableWord 40 0x100000002 = some (.append [0, 0]) := by decide

theorem test_decode_append_payload :
    decodeSd ⟨0x100000002#34, [0x62, 0x63, 0x64]⟩ = .append [0x62, 0x63] := by decide

theorem test_decode_final : decodeTableWord 40 0x212345678 = some .final := by decide

theorem test_decode_reset : decodeTableWord 40 0x3FFFFFFFF = some .reset := by decide

theorem test_decode_refuses_bit_above_header : requestOfWord 40 0x400000000 = .error .bitAboveFormat := by rfl

theorem test_decode_refuses_other_width : requestOfWord 32 0 = .error .noSuchFormat := by rfl

theorem test_encode_append :
    encode (.append [0x61, 0x62, 0x63]) = .sd ⟨0x100000003#34, [0x61, 0x62, 0x63]⟩ := by decide

theorem test_encode_xxh32 :
    encode (.xxh32 0 [0x61, 0x62, 0x63]) = .os ⟨0x000000000000000300000000#96, [0x61, 0x62, 0x63]⟩ := by decide

/-- The rows of R64 do not overlap. -/
theorem test_rows_do_not_overlap :
    opRows.Pairwise (fun a b => (a.pattern ^^^ b.pattern) &&& a.mask &&& b.mask ≠ 0) := by decide

/-! ## Primitives: corner rows of 95_test_vectors.md section 2 -/

theorem test_laneInit_zero_lane : laneInit 0x9E3779B1 = ⟨0xC25ABDD9, 0x24234428, 0x9E3779B1, 0x00000000⟩ := by decide

theorem test_round_top_bits : laneRound 0x12345678 0x9ABCDEF0 = 0x940B3397 := by decide

theorem test_block_second :
    block oneBlockLanes (bytes 0x10 16) = ⟨0x482243D4, 0x54EA6B2C, 0x03ED5694, 0x217F5DEC⟩ := by decide

theorem test_merge_of_laneInit : merge (laneInit 0) = 0x57694B34 := by decide

theorem test_addLen_truncates : addLen 0x00000001 18446744073709551615 = 0x00000000 := by decide

/-- A sign-extending model would give 0x12B9B589. -/
theorem test_tailByte_zero_extends : tailByte 0x165667B2 (zext32 0x80) = 0x39B1A64C := by decide

theorem test_tail_words_before_bytes : tail 0x165667B8 (bytes 0x61 7) = 0xAB96CA5F := by decide

theorem test_avalanche_logical_shift : avalanche 0x80000000 = 0x22CC2014 := by decide

theorem test_finish_adds_low_bits : finish 0 oneBlockLanes 4294967312 [] = 0xB72837F4 := by decide

/-! ## XXH32 -/

/-- K1 to K4 of 95_test_vectors.md section 1, the last two on the joined string. -/
theorem test_xxh32_known_values :
    xxh32 0 sampleOne = 0x1130E7D4 ∧ xxh32 1471 sampleOne = 0xBA59A258 ∧
      xxh32 0 (sampleOne ++ sampleTwo) = 0x0D44373A ∧ xxh32 1471 (sampleOne ++ sampleTwo) = 0x3265E220 := by
  decide +kernel

/-- Boundary lengths of table R104, and input B of the detectors of 95_test_vectors.md section 3, which separates every
listed misreading. -/
theorem test_xxh32_boundaries :
    [0, 1, 3, 4, 5, 15, 16, 17, 31, 32].map (fun n => xxh32 0 (bytes 0 n)) =
      [0x02CC5D05, 0xCF65B03E, 0x663E9A55, 0x80691E66, 0x9EA1B7C4, 0x57C01ECE, 0xB72837F4, 0x7C77ADC2, 0xEF24F709,
        0x830741C1] ∧
      xxh32 0 (bytes 0x80 23) = 0xAF9AB109 := by decide

/-! ## The commands of SD -/

theorem test_exec_init :
    (nextOf (exec (.init 0xDEADBEEF) (withSd beforeWrap))).map State.sd =
      some ⟨0xDEADBEEF, ⟨0x02D10317, 0x64998966, 0xDEADBEEF, 0x4076453E⟩, [], 0⟩ := by decide

/-- K3: APPEND S2 completes the carried block first. -/
theorem test_exec_append_sample_two :
    (nextOf (exec (.append sampleTwo) (withSd afterSampleOne))).map State.sd = some afterSampleTwo := by decide

/-- Table 4.3: a block from the carry, two from the chunk, two bytes left. -/
theorem test_append_carry_and_chunk_blocks :
    Sd.append (bytes 10 40) ⟨0, freshLanes, bytes 0 10, 10⟩ =
      ⟨0, ⟨0xD4022F70, 0x23A70BA0, 0x4E127BE7, 0x5DDE22AF⟩, [0x30, 0x31], 50⟩ := by decide

/-- K3: FINAL. -/
theorem test_exec_final :
    (nextOf (exec .final (withSd afterSampleTwo))).map State.responses = some [0x0D44373A] := by decide

/-- A model that kept the flag of U2 would answer 0x231B0D76 (program 5). -/
theorem test_final_after_wrap :
    Sd.digest ⟨0, ⟨0x466F759A, 0xC5CA0341, 0x1304685A, 0x30966FB2⟩, [], 0⟩ = 0x02CC5D05 := by decide

theorem test_exec_reset :
    (nextOf (exec .reset (withSd ⟨1, oneBlockLanes, bytes 0 5, 37⟩))).map State.sd =
      some ⟨1, ⟨0x24234429, 0x85EBCA78, 0x00000001, 0x61C88650⟩, [], 0⟩ := by decide

/-! ## The step -/

theorem test_fetch_word_runs :
    (nextOf (step (State.reset.withFetchWord 40 0x0000005BF))).map (fun s => (s.sd.seed, s.pending)) =
      some (0x000005BF, []) := by decide

theorem test_fetch_word_of_no_format : State.reset.withFetchWord 32 0 = State.reset := by rfl

/-- `rst` wins over a presented command (R133). -/
theorem test_reset_wins :
    (nextOf (step ((withSd beforeWrap).withPending [.sd ⟨true, true, true, ⟨0x0DEADBEEF, []⟩⟩]))).map State.sd =
      some ⟨0, freshLanes, [], 0⟩ := by decide

/-- A command presented while `cmd_ready` is 0 is not accepted (R157). -/
theorem test_not_ready :
    (nextOf (step (withInputs [.sd ⟨false, true, false, ⟨0x0DEADBEEF, []⟩⟩]))).map State.sd =
      some ⟨0, freshLanes, [], 0⟩ := by decide

/-- A FINAL cut by `rst` gives no response (R152). -/
theorem test_cut_final :
    (nextOf (step (withInputs [.cut ⟨0x200000000, []⟩]))).map State.responses = some [] := by decide

/-! ## Lines and pseudo-operations -/

theorem test_line_encoding :
    (Line.command (.append [0x61, 0x62, 0x63])).encoding =
      some (['1', '0', '0', '0', '0', '0', '0', '0', '3'], [0x61, 0x62, 0x63]) := by decide

theorem test_line_text_init :
    (Line.command (.init 0x000005BF)).text hexData =
      ['I', 'N', 'I', 'T', ' ', '0', 'x', '0', '0', '0', '0', '0', '5', 'B', 'F'] := by decide

theorem test_line_text_quoted :
    (Line.command (.append [0x61, 0x62, 0x63])).text quotedData =
      ['A', 'P', 'P', 'E', 'N', 'D', ' ', '"', 'a', 'b', 'c', '"'] := by decide

theorem test_final_text :
    finalText 0x32D153FF = ['F', 'I', 'N', 'A', 'L', ' ', '-', '>', ' ', '0', 'x', '3', '2', 'D', '1', '5', '3', 'F', 'F'] := by
  decide

theorem test_long_append :
    longAppend ⟨0, 2⟩ [1, 2, 3, 4, 5] = [.append [1, 2], .append [3, 4], .append [5]] := by decide


/-! ## Witnesses: for every statement with hypotheses, values that meet them, at the boundaries of its clauses -/

/-- A next outcome whose state passes a check. -/
theorem next_with {o : Host.Outcome State Fault Refusal} {P : State → Prop} [DecidablePred P]
    (h : (nextOf o).any (fun t => decide (P t)) = true) : ∃ t, o = .next t ∧ P t := by
  cases o with
  | next t => exact ⟨t, rfl, by simpa [nextOf] using h⟩
  | fault f => simp [nextOf] at h
  | refused r => simp [nextOf] at h

/-- Fifteen bytes carried, the fullest buffer. -/
def fullCarry : Sd := ⟨0, freshLanes, bytes 0 15, 15⟩

/-- `fullCarry` behind ports of the given capacities, with the given inputs to come. -/
def tight (maxLen : Fin (2 ^ 64)) (maxChunk : Fin (2 ^ 32)) (events : List Event) : State :=
  ((withPorts maxLen maxChunk).setSd fullCarry).withPending events

/-- The sample of an accepted command. -/
def accepted (cmd : Header) (data : List Byte) : Event := .sd ⟨false, true, true, ⟨cmd, data⟩⟩

theorem witness_DecodeReadsBackEveryEncoding :
    (Instr.xxh32 0xFFFFFFFF (bytes 0 3)).wf = true ∧ (Instr.append (bytes 0 3)).wf = true ∧
      (Instr.init 0xFFFFFFFF).wf = true ∧ Instr.final.wf = true ∧ Instr.reset.wf = true := by decide

theorem witness_EncodeRestoresEveryCanonicalRequest :
    (0x0FFFFFFFF#34 &&& 0x300000000#34 = 0x000000000#34 ∧ ([] : List Byte) = []) ∧
      (0x100000003#34 &&& 0x300000000#34 = 0x100000000#34 ∧ (bytes 0 3).length = (0x100000003#34).toNat % 2 ^ 32) ∧
      (SdCommand.mk 0x200000000 []).cmd = 0x200000000#34 ∧ (SdCommand.mk 0x300000000 []).cmd = 0x300000000#34 ∧
      (0x100000000#34 &&& 0x300000000#34 = 0x100000000#34 ∧ (bytes 0 0).length = (0x100000000#34).toNat % 2 ^ 32) ∧
      (bytes 0 3).length = (0x3DEADBEEF#96).toNat / 2 ^ 32 := by decide

theorem witness_EveryHeaderIsExactlyOneCommand :
    (0x100000003#34 &&& 0x300000000#34 = 0x100000000#34 ∧
        (0x100000003#34).toNat % 2 ^ 32 ≤ (withPorts 1 3).params.maxChunk.val) ∧
      ¬(0x2FFFFFFFF#34 &&& 0x300000000#34 = 0x100000000#34) ∧
      (0x3DEADBEEF#96).toNat / 2 ^ 32 ≤ (withPorts 3 1).params.maxLen.val := by decide

theorem witness_AppendPayloadIsTheFirstPortBytes :
    2 < (3#32).toNat ∧ (3#32).toNat ≤ (bytes 0 3).length ∧ (0#32) = 0 ∧ (withPorts 1 2).params.maxChunk.val < (3#32).toNat := by
  decide

theorem witness_OneShotRequestIsSeedLengthAndBytes :
    2 < (3#64).toNat ∧ (3#64).toNat ≤ (bytes 0 3).length ∧ (withPorts 2 1).params.maxLen.val < (3#64).toNat := by decide

theorem witness_StepRunsTheAcceptedRequest :
    (withInputs [accepted 0x200000000 []]).pending = .sd ⟨false, true, true, ⟨0x200000000, []⟩⟩ :: [] ∧
      (withInputs [.os ⟨0x3DEADBEEF, bytes 0 3⟩, rstEvent]).pending = .os ⟨0x3DEADBEEF, bytes 0 3⟩ :: [rstEvent] := by decide

theorem witness_PresentedInstructionRuns :
    (Instr.append (bytes 0 3)).wf = true ∧
      (withInputs [eventOf (.append (bytes 0 3)), rstEvent]).pending = eventOf (.append (bytes 0 3)) :: [rstEvent] := by
  decide

theorem witness_FetchWordRunsItsInstruction :
    decodeTableWord 40 0x3FFFFFFFF = some .reset ∧ decodeTableWord 34 0x200000000 = some .final ∧
      decodeTableWord 96 0xDEADBEEF = some (.xxh32 0xDEADBEEF []) := by decide

theorem witness_UnacceptedCommandChangesNothing :
    State.reset.pending = [] ∧
      ∀ pins ∈ [SdPins.mk false true false ⟨0x0DEADBEEF, []⟩, SdPins.mk false false true ⟨0x0DEADBEEF, []⟩],
        (withInputs [.sd pins]).pending = .sd pins :: [] ∧ pins.rst = false ∧ (pins.valid && pins.ready) = false := by
  decide

theorem witness_HardwareResetLeavesTheDefaultContext :
    ((withSd beforeWrap).withPending [.sd ⟨true, true, true, ⟨0x0DEADBEEF, []⟩⟩]).pending =
      .sd ⟨true, true, true, ⟨0x0DEADBEEF, []⟩⟩ :: [] ∧
    (SdPins.mk true true true ⟨0x0DEADBEEF, []⟩).rst = true := by decide

theorem witness_CutCommandIsDiscardedWhole :
    ((withSd beforeWrap).withPending [.cut ⟨0x200000000, []⟩]).pending = .cut ⟨0x200000000, []⟩ :: [] := by decide

theorem witness_UnsettledOutputIsAFreeValue :
    (withInputs [.osUnsettled ⟨0x3DEADBEEF, bytes 0 3⟩]).pending = .osUnsettled ⟨0x3DEADBEEF, bytes 0 3⟩ :: [] := by decide

/-- Both refusals occur, one byte beyond the port. -/
theorem witness_OnlyTheEnvelopeIsRefused :
    refusalOf (step ((withPorts 2 1).withPending [.os ⟨0x3DEADBEEF, bytes 0 3⟩])) = some .lengthBeyondPort ∧
      refusalOf (step ((withPorts 1 2).withPending [accepted 0x100000003 (bytes 0 3)])) = some .chunkBeyondPort := by
  decide

theorem witness_WordsAreLittleEndian : 0 + 4 ≤ (bytes 0 4).length ∧ 3 < (bytes 0 4).length := by decide

theorem witness_RotationMovesEachBit : (0 < 1 ∧ 1 < 32 ∧ 31 < 32) ∧ 0 < 31 := by decide

theorem witness_BlockAdvancesEachLaneByItsWord : (bytes 0 16).length = 16 := by decide

theorem witness_StartValueAndLengthAddWrap : (5#64).toNat % 2 ^ 32 = (4294967301#64).toNat % 2 ^ 32 := by decide

theorem witness_TailTakesWordsThenBytes : (bytes 0 3).length < 4 := by decide

theorem witness_MixingStepsAreInvertible : 0 < 1 ∧ 1 < 32 ∧ 0 < 31 ∧ 31 < 32 := by decide

theorem witness_FinishReadsLanesOrSeed : (15#64).toNat < 16 ∧ 16 ≤ (16#64).toNat := by decide

theorem witness_OneShotGivesTheDigest :
    (bytes 0 3).length ≤ (withPorts 3 1).params.maxLen.val ∧ ([] : List Byte).length ≤ (withPorts 0 1).params.maxLen.val := by
  decide

/-- 23 bytes have a block, a tail word, tail bytes, and a last word that ends within them. -/
theorem witness_EachInputByteIsReadOnce :
    0 < (bytes 0 23).length / 16 ∧ 0 < (bytes 0 23).length % 16 / 4 ∧ 2 < (bytes 0 23).length % 4 ∧
      19 + 4 ≤ (bytes 0 23).length ∧ (bytes 0 23).length < 2 ^ 64 := by decide

theorem witness_ShortInputsSeparateSeeds : (bytes 0 15).length < 16 := by decide

theorem witness_TheTwoBlocksShareNothing :
    (∃ t, step (withInputs [.os ⟨0x3DEADBEEF, bytes 0 3⟩]) = .next t ∧ t.osDigests.length = 1) ∧
      (∃ t, step (withInputs [.osUnsettled ⟨0x3DEADBEEF, bytes 0 3⟩]) = .next t ∧ t.freeCount = 1) ∧
      (∃ t, step (withInputs [accepted 0x200000000 []]) = .next t ∧ t.responses.length = 1) ∧
      (∃ t, step (withInputs [.cut ⟨0x200000000, []⟩]) = .next t ∧ t.responses.length = 0) ∧
      (∃ t, exec (.xxh32 0 (bytes 0 3)) State.reset = .next t ∧ t.osDigests.length = 1) ∧
      ∃ t, exec (.xxh32 0 (bytes 0 3)) (withSd beforeWrap) = .next t ∧ t.osDigests.length = 1 :=
  ⟨next_with (by decide), next_with (by decide), next_with (by decide), next_with (by decide), next_with (by decide),
    next_with (by decide)⟩

theorem witness_InitConstructsTheContext :
    ∃ t, exec (.init 1) State.reset = .next t ∧ t.sd.seed ≠ State.reset.sd.seed := next_with (by decide)

/-- A carried block completed by its last byte; one a byte short; an empty buffer. -/
theorem witness_AppendFollowsTheDocument :
    ((tight 1 1 []).sd.carry.length ≤ 15 ∧ (bytes 0 1).length ≤ (tight 1 1 []).params.maxChunk.val ∧
        0 < (tight 1 1 []).sd.carry.length ∧ 16 ≤ (tight 1 1 []).sd.carry.length + (bytes 0 1).length) ∧
      ((withSd ⟨0, freshLanes, bytes 0 7, 7⟩).sd.carry.length ≤ 15 ∧
        (bytes 0 8).length ≤ (withSd ⟨0, freshLanes, bytes 0 7, 7⟩).params.maxChunk.val ∧
        0 < (withSd ⟨0, freshLanes, bytes 0 7, 7⟩).sd.carry.length ∧
        (withSd ⟨0, freshLanes, bytes 0 7, 7⟩).sd.carry.length + (bytes 0 8).length < 16) ∧
      (State.reset.sd.carry.length = 0 ∧ (bytes 0 16).length ≤ State.reset.params.maxChunk.val) := by decide

theorem witness_ThreeWaysToAppendAgree : fullCarry.carry.length ≤ 15 := by decide

theorem witness_EmptyAppendChangesNothing : (withSd fullCarry).sd.carry.length ≤ 15 := by decide

theorem witness_ResetRestoresTheFreshContext :
    ∃ t, exec (.init (withSd beforeWrap).sd.seed) (withSd beforeWrap) = .next t ∧ t.sd = Sd.fresh := next_with (by decide)

theorem witness_EveryCommandIsLegalInEveryState :
    ∀ i ∈ [Instr.reset, .append (bytes 0 1), .final, .init 7, .append [], .xxh32 9 (bytes 0 2), .final],
      inEnvelope (tight 2 1 []).params i = true := by decide

theorem witness_ChunkBoundariesDoNotMatter :
    (tight 1 3 []).sd.carry.length ≤ 15 ∧
      [bytes 0 1, [], bytes 1 2].flatten.length ≤ (tight 1 3 []).params.maxChunk.val := by decide

theorem witness_OneAppendEqualsOneShot : (bytes 0 3).length ≤ (tight 1 3 []).params.maxChunk.val := by decide

/-- Each of the three starts, with a FINAL between the APPENDs. -/
theorem witness_StreamingEqualsOneShot :
    ((eventOf .reset = eventOf .reset ∧ (tight 1 3 []).sd.seed = 0) ∧ rstEvent = rstEvent ∧
        eventOf (.init 7) = eventOf (.init 7)) ∧
      (∀ i ∈ [Instr.append (bytes 0 3), .final, .append (bytes 3 2)], streamCommand (tight 1 3 []).params i = true) ∧
      ([Instr.append (bytes 0 3), .final, .append (bytes 3 2)].flatMap Instr.payload).length < 2 ^ 64 ∧
      ∀ start ∈ [eventOf (.init 7), eventOf .reset, rstEvent],
        (tight 1 3 (start :: ([Instr.append (bytes 0 3), .final, .append (bytes 3 2)].map eventOf ++
            eventOf .final :: [rstEvent]))).pending =
          start :: ([Instr.append (bytes 0 3), .final, .append (bytes 3 2)].map eventOf ++ eventOf .final :: [rstEvent]) := by
  decide

theorem witness_LongAppendIsPieces :
    (tight 1 1 []).params.wf = true ∧ (tight 1 1 []).sd.carry.length ≤ 15 ∧
      longAppend (tight 1 1 []).params (bytes 0 2) = [.append [0], .append [1]] := by decide

theorem witness_PseudoOperationsExpand :
    (bytes 0 3).length ≤ (tight 3 1 []).params.maxLen.val ∧ (tight 3 1 []).sd.carry.length ≤ 15 := by decide

/-- The APPEND that completes a block, and the one at which LEN wraps. -/
theorem witness_StepKeepsTheStateLegal :
    ((tight 1 1 [accepted 0x100000001 (bytes 15 1)]).wf = true ∧
        ∃ t, step (tight 1 1 [accepted 0x100000001 (bytes 15 1)]) = .next t ∧ t.sd.carry = []) ∧
      ((withSd beforeWrap).withPending [accepted 0x100000008 (bytes 8 8)]).wf = true ∧
        ∃ t, step ((withSd beforeWrap).withPending [accepted 0x100000008 (bytes 8 8)]) = .next t ∧ t.sd.len = 0 :=
  ⟨⟨by decide, next_with (by decide)⟩, by decide, next_with (by decide)⟩

theorem witness_ContextIsAFunctionOfTheStream :
    (tight 1 1 [accepted 0x100000001 (bytes 15 1)]).sd.FromStream ∧
      (∃ t, step (tight 1 1 [accepted 0x100000001 (bytes 15 1)]) = .next t ∧ t.sd.lanes = oneBlockLanes) ∧
      (bytes 0 16).length < 2 ^ 64 :=
  ⟨⟨bytes 0 15, by decide⟩, next_with (by decide), by decide⟩

/-- SEED changed by INIT and by a hardware reset. -/
theorem witness_SeedIsWrittenByInitAndResetOnly :
    (∃ t, step (withInputs [accepted 0x000000007 []]) = .next t ∧ t.sd.seed ≠ State.reset.sd.seed) ∧
      ∃ t, step ((withSd (Sd.construct 7)).withPending [rstEvent]) = .next t ∧ t.sd.seed ≠ (Sd.construct 7).seed :=
  ⟨next_with (by decide), next_with (by decide)⟩

/-- LEN changed by an APPEND and by a RESET. -/
theorem witness_LenCountsAppendedBytes :
    (accepted 0x100000001 (bytes 15 1)).runs (.append [15]) ∧ (accepted 0x300000000 []).runs .reset ∧
      (accepted 0x000000007 []).runs (.init 7) ∧ rstEvent.action = .reset ∧
      (∃ t, step (tight 1 1 [accepted 0x100000001 (bytes 15 1)]) = .next t ∧ t.sd.len ≠ fullCarry.len) ∧
      ∃ t, step (tight 1 1 [accepted 0x300000000 []]) = .next t ∧ t.sd.len ≠ fullCarry.len :=
  ⟨by unfold Event.runs; decide, by unfold Event.runs; decide, by unfold Event.runs; decide, by decide,
    next_with (by decide), next_with (by decide)⟩

theorem witness_LanesChangeOnlyWhenABlockCompletes :
    ∃ t, step (tight 1 1 [accepted 0x100000001 (bytes 15 1)]) = .next t ∧ t.sd.lanes ≠ fullCarry.lanes :=
  next_with (by decide)

/-- A step that runs FINAL, and one that does not. -/
theorem witness_OnlyFinalResponds :
    ((accepted 0x200000000 []).runs .final ∧
        ∃ t, step (tight 1 1 [accepted 0x200000000 []]) = .next t ∧ t.responses = [fullCarry.digest]) ∧
      ∃ t, step (tight 1 1 [accepted 0x300000000 []]) = .next t ∧ t.responses = [] :=
  ⟨⟨by unfold Event.runs; decide, next_with (by decide)⟩, next_with (by decide)⟩

theorem witness_WrappedLengthTakesTheShortPath :
    fullCarry.len.toNat < 16 ∧
      beforeWrap = ⟨0, ⟨0xF817BCCB, 0x0222719B, 0xD4B0C0A4, 0xDEBB7574⟩, [0, 1, 2, 3, 4, 5, 6, 7], 18446744073709551608⟩ := by
  decide

theorem witness_LineEncodingIsNineDigitsAndPayload :
    ∀ i ∈ [Instr.init 7, .append (bytes 0 1), .final, .reset], ∀ seed data, i ≠ .xxh32 seed data := by
  simp

end Sys2Proof.Tests
end

/-! Reading a byte sequence (R42 of 20_memory.md): the little-endian word and the zero-extended byte. -/

namespace Sys2Proof.Proofs.Memory

open Sys2Proof.Machine

@[simp] theorem toNat_zext32 (b : Byte) : (zext32 b).toNat = b.toNat :=
  BitVec.toNat_setWidth_of_le (by decide)

@[simp] theorem toNat_readByte (S : List Byte) (off : Nat) :
    (readByte S off).toNat = (byteAt S off).toNat :=
  toNat_zext32 _

/-- The 32-bit sum of `le32` never wraps: four bytes at weights 2^0, 2^8, 2^16, 2^24 stay below 2^32. -/
theorem toNat_le32 (S : List Byte) (off : Nat) :
    (le32 S off).toNat = (byteAt S off).toNat + 2 ^ 8 * (byteAt S (off + 1)).toNat +
      2 ^ 16 * (byteAt S (off + 2)).toNat + 2 ^ 24 * (byteAt S (off + 3)).toNat := by
  simp only [le32, BitVec.toNat_add, BitVec.toNat_mul, toNat_zext32, BitVec.toNat_ofNat]
  omega

/-- Byte `j` of the word, counted from the least significant one, is the byte read at `off + j`. -/
theorem extractLsb'_le32 (S : List Byte) (off : Nat) {j : Nat} (hj : j < 4) :
    (le32 S off).extractLsb' (8 * j) 8 = byteAt S (off + j) := by
  apply BitVec.eq_of_toNat_eq
  rw [BitVec.extractLsb'_toNat, Nat.shiftRight_eq_div_pow, toNat_le32]
  interval_cases j
  · rw [Nat.add_zero off]; omega
  all_goals omega

/-- Bit `8j + b` of the word is bit `b` of the byte read at `off + j` (R42). -/
theorem getLsbD_le32 (S : List Byte) (off : Nat) {j b : Nat} (hj : j < 4) (hb : b < 8) :
    (le32 S off).getLsbD (8 * j + b) = (byteAt S (off + j)).getLsbD b := by
  rw [← extractLsb'_le32 S off hj, BitVec.getLsbD_extractLsb']
  simp [hb]

/-- Settles O16: the integer formula is `toNat_le32`, the bit positions are `getLsbD_le32`. -/
theorem wordsAreLittleEndian : Obligations.WordsAreLittleEndian := by
  unfold Obligations.WordsAreLittleEndian
  refine ⟨fun S off _ => ⟨toNat_le32 S off, fun j hj b hb => getLsbD_le32 S off hj hb⟩,
    fun S off _ => toNat_readByte S off, ?_⟩
  decide

end Sys2Proof.Proofs.Memory

/-! The mixing primitives (R11 and R82 to R91 of 40_mixing_primitives.md): each one on the integers, and the bijections
among them, built from the bijections of their steps. -/

namespace Sys2Proof.Proofs.Mixing

open Sys2Proof.Machine Sys2Proof.Proofs.Memory Function

/-! ## Rotation -/

/-- The low part is a multiple of `2^r` and the high part is below `2^r`, so the sum of R11 never wraps. -/
theorem rotlNat_lt (a : Word) {r : Nat} (hr : r < 32) : rotlNat a.toNat r < 2 ^ 32 := by
  have hsplit : 2 ^ 32 = 2 ^ (32 - r) * 2 ^ r := by rw [← Nat.pow_add]; congr 1; omega
  have hlow : a.toNat * 2 ^ r % 2 ^ 32 = a.toNat % 2 ^ (32 - r) * 2 ^ r := by
    rw [hsplit, Nat.mul_mod_mul_right]
  have hhigh : a.toNat / 2 ^ (32 - r) < 2 ^ r :=
    Nat.div_lt_of_lt_mul (hsplit ▸ a.isLt)
  have hmod : a.toNat % 2 ^ (32 - r) + 1 ≤ 2 ^ (32 - r) := Nat.mod_lt _ (Nat.two_pow_pos _)
  calc rotlNat a.toNat r = a.toNat % 2 ^ (32 - r) * 2 ^ r + a.toNat / 2 ^ (32 - r) := by rw [rotlNat, hlow]
    _ < (a.toNat % 2 ^ (32 - r) + 1) * 2 ^ r := by rw [Nat.add_one_mul]; omega
    _ ≤ 2 ^ 32 := hsplit ▸ Nat.mul_le_mul_right _ hmod

theorem toNat_rotl32 (a : Word) {r : Nat} (hr : r < 32) : (rotl32 a r).toNat = rotlNat a.toNat r := by
  rw [rotl32, BitVec.toNat_add, BitVec.toNat_shiftLeft, BitVec.toNat_ushiftRight, Nat.shiftLeft_eq,
    Nat.shiftRight_eq_div_pow]
  exact Nat.mod_eq_of_lt (rotlNat_lt a hr)

/-- The two parts share no bit, so their sum is the library's rotation. -/
theorem rotl32_eq_rotateLeft (a : Word) {r : Nat} (hr : r < 32) : rotl32 a r = a.rotateLeft r := by
  have hdisjoint : a <<< r &&& a >>> (32 - r) = 0#32 := by
    ext i hi
    have hout (h : r ≤ i) : a.getLsbD (32 - r + i) = false := BitVec.getLsbD_of_ge _ _ (by omega)
    simp +contextual [hout]
  rw [rotl32, BitVec.rotateLeft_def, Nat.mod_eq_of_lt hr, BitVec.add_eq_or_of_and_eq_zero _ _ hdisjoint]

/-- Bit `i` moves to bit `(i + r) mod 32`. -/
theorem getLsbD_rotl32 (a : Word) {r i : Nat} (hr : r < 32) (hi : i < 32) :
    (rotl32 a r).getLsbD ((i + r) % 32) = a.getLsbD i := by
  rw [rotl32_eq_rotateLeft a hr, BitVec.getLsbD_rotateLeft, Nat.mod_eq_of_lt hr]
  obtain h | h := Nat.lt_or_ge (i + r) 32
  · rw [Nat.mod_eq_of_lt h]
    simp [h]
  · have hwrap : (i + r) % 32 = i + r - 32 := by omega
    have hlow : i + r - 32 < r := by omega
    have hback : 32 - r + (i + r - 32) = i := by omega
    simp [hwrap, hlow, hback]

/-! ## Bijections of the steps -/

/-- There are finitely many words, so an injective function on them is bijective. -/
theorem bijective_of_injective {f : Word → Word} (h : Injective f) : Bijective f :=
  have : Finite Word := Finite.of_injective _ BitVec.toFin_injective
  Finite.injective_iff_bijective.1 h

theorem rotl32_bijective {r : Nat} (hr : r < 32) : Bijective fun a : Word => rotl32 a r := by
  refine bijective_of_injective fun a b (h : rotl32 a r = rotl32 b r) => BitVec.eq_of_getLsbD_eq fun i hi => ?_
  rw [← getLsbD_rotl32 a hr hi, h, getLsbD_rotl32 b hr hi]

/-- A word that equals itself shifted right is zero, and `x ^^^ (x >>> k)` is linear in `x`. -/
theorem xorShift_bijective {k : Nat} (hk : 0 < k) : Bijective fun x : Word => x ^^^ (x >>> k) := by
  refine bijective_of_injective fun x y (h : x ^^^ (x >>> k) = y ^^^ (y >>> k)) => BitVec.xor_eq_zero_iff.1 ?_
  have hfix : (x ^^^ y) >>> k = x ^^^ y := by
    rw [BitVec.ushiftRight_xor_distrib, ← BitVec.xor_eq_zero_iff, ← BitVec.xor_eq_zero_iff.2 h]
    ac_rfl
  have hdiv : (x ^^^ y).toNat / 2 ^ k = (x ^^^ y).toNat := by
    rw [← Nat.shiftRight_eq_div_pow, ← BitVec.toNat_ushiftRight, hfix]
  exact BitVec.eq_of_toNat_eq ((Nat.div_eq_self.1 hdiv).resolve_right (Nat.one_lt_two_pow hk.ne').ne')

/-! The inverses of R94 make the primes units. -/

theorem isUnit_prime1 : IsUnit prime1 := .of_mul_eq_one 0x0E8B2F51#32 (by decide)
theorem isUnit_prime2 : IsUnit prime2 := .of_mul_eq_one 0xB6C92F47#32 (by decide)
theorem isUnit_prime3 : IsUnit prime3 := .of_mul_eq_one 0xA89ED915#32 (by decide)

theorem mul_bijective {q : Word} (hq : IsUnit q) : Bijective fun a : Word => a * q :=
  IsUnit.isUnit_iff_mulRight_bijective.1 hq

/-! ## The step ROUND, TAILWORD and TAILBYTE share: add a multiple, rotate, multiply -/

theorem toNat_rotl32_add_mul_mul (acc w p q : Word) {r : Nat} (hr : r < 32) :
    (rotl32 (acc + w * p) r * q).toNat =
      rotlNat ((acc.toNat + w.toNat * p.toNat) % 2 ^ 32) r * q.toNat % 2 ^ 32 := by
  rw [BitVec.toNat_mul, toNat_rotl32 _ hr, BitVec.toNat_add, BitVec.toNat_mul, Nat.add_mod_mod]

theorem rotl32_mul_bijective {q : Word} {r : Nat} (hr : r < 32) (hq : IsUnit q) :
    Bijective fun a : Word => rotl32 a r * q :=
  (mul_bijective hq).comp (rotl32_bijective hr)

theorem laneRound_bijective_left (w : Word) : Bijective fun acc => laneRound acc w :=
  (rotl32_mul_bijective (by decide) isUnit_prime1).comp (AddGroup.addRight_bijective (w * prime2))

theorem laneRound_bijective_right (acc : Word) : Bijective fun w => laneRound acc w :=
  (rotl32_mul_bijective (by decide) isUnit_prime1).comp
    ((AddGroup.addLeft_bijective acc).comp (mul_bijective isUnit_prime2))

/-! ## ROUND and BLOCK (R83, R84) -/

theorem toNat_laneRound (acc w : Word) : (laneRound acc w).toNat =
    rotlNat ((acc.toNat + w.toNat * 0x85EBCA77) % 2 ^ 32) 13 * 0x9E3779B1 % 2 ^ 32 := by
  rw [laneRound, toNat_rotl32_add_mul_mul _ _ _ _ (by decide), toNat_prime1, toNat_prime2]

/-- Settles O19: ROUND is an addition, a rotation and a multiplication by an odd constant, each a bijection. -/
theorem roundIsTheIntegerFormula : Obligations.RoundIsTheIntegerFormula := by
  unfold Obligations.RoundIsTheIntegerFormula
  exact ⟨toNat_laneRound, by decide, laneRound_bijective_left, laneRound_bijective_right, by decide⟩

theorem byteAt_slice (S : List Byte) (off : Nat) {n i : Nat} (hi : i < n) :
    byteAt (slice S off n) i = byteAt S (off + i) := by
  simp [byteAt, slice, List.getD_eq_getElem?_getD, hi]

theorem le32_slice (S : List Byte) (off : Nat) : le32 (slice S off 4) 0 = le32 S off := by
  simp [le32, byteAt_slice]

/-- Settles O20: the word of four bytes cut out of the block is the word read in place. -/
theorem blockAdvancesEachLaneByItsWord : Obligations.BlockAdvancesEachLaneByItsWord := by
  unfold Obligations.BlockAdvancesEachLaneByItsWord
  refine ⟨fun v B _ => ?_, ⟨0, 0, 1, by decide⟩, by decide⟩
  rw [le32_slice, le32_slice, le32_slice, le32_slice]
  rfl

/-! ## LANEINIT, MERGE, SMALLINIT and ADDLEN (R82, R85 to R87) -/

/-- The four lanes are the seed plus four offsets, and the offsets differ. -/
theorem laneInit_nodup (seed : Word) :
    [(laneInit seed).v0, (laneInit seed).v1, (laneInit seed).v2, (laneInit seed).v3].Nodup := by
  have hoffsets : [prime1 + prime2, prime2, 0, -prime1].Nodup := by decide
  have hlanes := hoffsets.map (add_right_injective seed)
  simpa [laneInit, add_assoc, sub_eq_add_neg] using hlanes

theorem toNat_smallInit (seed : Word) : (smallInit seed).toNat = (seed.toNat + 0x165667B1) % 2 ^ 32 := by
  rw [smallInit, BitVec.toNat_add, toNat_prime5]

theorem toNat_addLen (acc : Word) (n : Count) : (addLen acc n).toNat = (acc.toNat + n.toNat) % 2 ^ 32 := by
  rw [addLen, BitVec.toNat_add, trunc32, BitVec.toNat_setWidth, Nat.add_mod_mod]

theorem toNat_merge (v : Lanes) : (merge v).toNat =
    (rotlNat v.v0.toNat 1 + rotlNat v.v1.toNat 7 + rotlNat v.v2.toNat 12 + rotlNat v.v3.toNat 18) % 2 ^ 32 := by
  simp only [merge, BitVec.toNat_add, toNat_rotl32 _ (by decide : 1 < 32), toNat_rotl32 _ (by decide : 7 < 32),
    toNat_rotl32 _ (by decide : 12 < 32), toNat_rotl32 _ (by decide : 18 < 32), Nat.mod_add_mod]

/-- Settles O18: each lane's sum or difference wraps once, and `laneInit_nodup` tells the lanes apart. -/
theorem laneInitGivesTheStartValues : Obligations.LaneInitGivesTheStartValues := by
  unfold Obligations.LaneInitGivesTheStartValues
  refine ⟨fun seed => ⟨?_, ?_, rfl, ?_, laneInit_nodup seed⟩, by decide⟩
  · rw [laneInit, BitVec.toNat_add, BitVec.toNat_add, toNat_prime1, toNat_prime2, Nat.mod_add_mod]
  · rw [laneInit, BitVec.toNat_add, toNat_prime2]
  · rw [laneInit, BitVec.toNat_sub, toNat_prime1, Nat.add_comm]

/-- Settles O21: the three wrapped additions of `toNat_merge` reduce to one. -/
theorem mergeIsTheIntegerFormula : Obligations.MergeIsTheIntegerFormula := by
  unfold Obligations.MergeIsTheIntegerFormula
  exact ⟨toNat_merge, by decide⟩

/-- Settles O22: `toNat_addLen` reads the length only modulo 2^32. -/
theorem startValueAndLengthAddWrap : Obligations.StartValueAndLengthAddWrap := by
  unfold Obligations.StartValueAndLengthAddWrap
  refine ⟨toNat_smallInit, toNat_addLen, fun acc m n h => BitVec.eq_of_toNat_eq ?_, by decide⟩
  rw [toNat_addLen, toNat_addLen, ← Nat.add_mod_mod, h, Nat.add_mod_mod]

/-! ## TAILWORD, TAILBYTE and TAIL (R88 to R90) -/

theorem toNat_tailWord (acc w : Word) : (tailWord acc w).toNat =
    rotlNat ((acc.toNat + w.toNat * 0xC2B2AE3D) % 2 ^ 32) 17 * 0x27D4EB2F % 2 ^ 32 := by
  rw [tailWord, toNat_rotl32_add_mul_mul _ _ _ _ (by decide), toNat_prime3, toNat_prime4]

theorem toNat_tailByte (acc w : Word) : (tailByte acc w).toNat =
    rotlNat ((acc.toNat + w.toNat * 0x165667B1) % 2 ^ 32) 11 * 0x9E3779B1 % 2 ^ 32 := by
  rw [tailByte, toNat_rotl32_add_mul_mul _ _ _ _ (by decide), toNat_prime5, toNat_prime1]

theorem tailByte_zero (acc : Word) : tailByte acc 0 = rotl32 acc 11 * prime1 := by
  rw [tailByte, zero_mul, add_zero]

/-- Settles O23: the byte enters by its unsigned value, `toNat_zext32`. -/
theorem tailStepsAreTheIntegerFormulas : Obligations.TailStepsAreTheIntegerFormulas := by
  unfold Obligations.TailStepsAreTheIntegerFormulas
  refine ⟨toNat_tailWord, fun acc b => ?_, by decide, by decide, by decide, by decide, by decide, tailByte_zero,
    by decide⟩
  rw [toNat_tailByte, toNat_zext32]

/-- Four bytes ahead of a tail move every word and byte of it up by four positions. -/
theorem tail_cons_word (acc : Word) (a b c d : Byte) (rest : List Byte) :
    tail acc (a :: b :: c :: d :: rest) = tail (tailWord acc (le32 [a, b, c, d] 0)) rest := by
  have hwords : (a :: b :: c :: d :: rest).length / 4 = rest.length / 4 + 1 := by
    simp only [List.length_cons]; omega
  have hbytes : (a :: b :: c :: d :: rest).length - 4 * (rest.length / 4 + 1) =
      rest.length - 4 * (rest.length / 4) := by
    simp only [List.length_cons]; omega
  have hword (i : Nat) : le32 (a :: b :: c :: d :: rest) (4 * (i + 1)) = le32 rest (4 * i) := rfl
  have hbyte (j : Nat) : readByte (a :: b :: c :: d :: rest) (4 * (rest.length / 4 + 1) + j) =
      readByte rest (4 * (rest.length / 4) + j) := by
    rw [Nat.mul_add_one, Nat.add_right_comm]
    rfl
  simp only [tail, hwords, hbytes, hbyte, List.range_succ_eq_map, List.foldl_cons, List.foldl_map, hword]
  rfl

/-- Reading the bytes of a sequence in order gives the sequence. -/
theorem map_byteAt_range (T : List Byte) : (List.range T.length).map (byteAt T) = T :=
  List.ext_getElem (by simp) (by simp +contextual [byteAt])

/-- With no full word the word loop is empty and the byte loop runs over the whole tail. -/
theorem tail_short (acc : Word) (T : List Byte) (h : T.length < 4) :
    tail acc T = T.foldl (fun a b => tailByte a (zext32 b)) acc := by
  have hwords : T.length / 4 = 0 := Nat.div_eq_of_lt h
  calc tail acc T = (List.range T.length).foldl (fun a j => tailByte a (readByte T j)) acc := by
        simp [tail, hwords]
    _ = ((List.range T.length).map (byteAt T)).foldl (fun a b => tailByte a (zext32 b)) acc := by
        rw [List.foldl_map]; rfl
    _ = T.foldl (fun a b => tailByte a (zext32 b)) acc := by rw [map_byteAt_range]

/-- Settles O24: `tail_cons_word` takes a word off the front, `tail_short` the bytes of a tail with no word left. -/
theorem tailTakesWordsThenBytes : Obligations.TailTakesWordsThenBytes := by
  unfold Obligations.TailTakesWordsThenBytes
  exact ⟨fun acc => tail_short acc [] (by decide), tail_cons_word, tail_short, by decide⟩

/-! ## AVALANCHE (R91) -/

theorem toNat_xorShift (x : Word) (k : Nat) : (x ^^^ (x >>> k)).toNat = x.toNat ^^^ x.toNat / 2 ^ k := by
  rw [BitVec.toNat_xor, BitVec.toNat_ushiftRight, Nat.shiftRight_eq_div_pow]

/-- Exclusive or with a shift, and multiplication by an odd constant, in turn. -/
theorem avalanche_bijective : Bijective avalanche :=
  (xorShift_bijective (k := 16) (by decide)).comp <| (mul_bijective isUnit_prime3).comp <|
    (xorShift_bijective (k := 13) (by decide)).comp <| (mul_bijective isUnit_prime2).comp <|
      xorShift_bijective (k := 15) (by decide)

theorem toNat_mul_prime2 (a : Word) : (a * prime2).toNat = a.toNat * 0x85EBCA77 % 2 ^ 32 := by
  rw [BitVec.toNat_mul, toNat_prime2]

theorem toNat_mul_prime3 (a : Word) : (a * prime3).toNat = a.toNat * 0xC2B2AE3D % 2 ^ 32 := by
  rw [BitVec.toNat_mul, toNat_prime3]

/-- Settles O25: one integer equation per stage, and a composition of five bijections. -/
theorem avalancheIsTheIntegerFormula : Obligations.AvalancheIsTheIntegerFormula := by
  unfold Obligations.AvalancheIsTheIntegerFormula
  refine ⟨fun acc => ?_, by decide, avalanche_bijective, by decide⟩
  rw [avalanche, toNat_xorShift, toNat_mul_prime3, toNat_xorShift, toNat_mul_prime2, toNat_xorShift]

end Sys2Proof.Proofs.Mixing

/-! The one-shot digest (R100 of 41_one_shot.md): what `xxh32` computes on each side of the length test. -/

namespace Sys2Proof.Proofs.OneShot

open Sys2Proof.Machine

/-- Reducing a length modulo 2^64 on the way loses nothing modulo 2^32. -/
theorem trunc32_lengthOf (S : List Byte) : trunc32 (lengthOf S) = BitVec.ofNat 32 S.length := by
  rw [trunc32, lengthOf, BitVec.setWidth_ofNat_of_le (by decide)]

theorem addLen_lengthOf (acc : Word) (S : List Byte) : addLen acc (lengthOf S) = acc + BitVec.ofNat 32 S.length := by
  rw [addLen, trunc32_lengthOf]

/-- The merge path of R100, steps (1) and (3) to (5). -/
theorem xxh32_merge (seed : Word) (data : List Byte) (hlt : data.length < 2 ^ 64) (h : 16 ≤ data.length) :
    xxh32 seed data = avalanche (tail (merge (mixBlocks (data.length / 16) (laneInit seed) data) +
      BitVec.ofNat 32 data.length) (data.drop (16 * (data.length / 16)))) := by
  have hcount : 16 ≤ (lengthOf data).toNat := by rwa [toNat_lengthOf, Nat.mod_eq_of_lt hlt]
  rw [xxh32, finish_merge _ _ _ _ hcount, addLen_lengthOf]

/-- The short path of R100, steps (2) to (5): there is no full block, so the whole input is the tail. -/
theorem xxh32_short (seed : Word) (data : List Byte) (h : data.length < 16) :
    xxh32 seed data = avalanche (tail (smallInit seed + BitVec.ofNat 32 data.length) data) := by
  have hcount : (lengthOf data).toNat < 16 := by rw [toNat_lengthOf]; omega
  have hblocks : data.length / 16 = 0 := Nat.div_eq_of_lt h
  rw [xxh32, finish_short _ _ _ _ hcount, addLen_lengthOf, hblocks, Nat.mul_zero, List.drop_zero]

/-- The five steps of R100 together, with the block loop indexed as the rule writes it. -/
theorem xxh32_eq_fiveSteps (seed : Word) (data : List Byte) (hlt : data.length < 2 ^ 64) :
    xxh32 seed data = avalanche (tail
      ((if 16 ≤ data.length then
          merge ((List.range (data.length / 16)).foldl (fun v j => block v (slice data (16 * j) 16)) (laneInit seed))
        else smallInit seed) + BitVec.ofNat 32 data.length)
      (data.drop (16 * (data.length / 16)))) := by
  split
  next h => rw [xxh32_merge seed data hlt h, mixBlocks_eq_indexed]
  next h =>
    have hshort : data.length < 16 := Nat.lt_of_not_le h
    rw [xxh32_short seed data hshort, Nat.div_eq_of_lt hshort, Nat.mul_zero, List.drop_zero]

/-- Settles O28: a request within the port has fewer than 2^64 bytes, so `xxh32_eq_fiveSteps` gives its digest. -/
theorem oneShotGivesTheDigest : Obligations.OneShotGivesTheDigest := by
  unfold Obligations.OneShotGivesTheDigest
  refine ⟨fun seed data s hfits => ?_, by decide, by decide, by decide⟩
  have hlt : data.length < 2 ^ 64 := Nat.lt_of_le_of_lt hfits s.params.maxLen.isLt
  rw [exec_xxh32 seed data s (decide_eq_true hfits), xxh32_eq_fiveSteps seed data hlt]
  rfl

end Sys2Proof.Proofs.OneShot

/-! The streaming block (R110 to R123 of 42_streaming.md): APPEND as one pass over the carried bytes and the chunk, the
digest of a context, and the laws that tie the commands to each other and to the one-shot digest. -/

namespace Sys2Proof.Proofs.Streaming

open Sys2Proof.Machine

/-! ## Replacing the context -/

@[simp] theorem setSd_setSd (s : State) (d e : Sd) : (s.setSd d).setSd e = s.setSd e := by cases s; rfl

@[simp] theorem setSd_self (s : State) : s.setSd s.sd = s := by cases s; rfl

/-! ## APPEND (R111, R115, R116) -/

/-- Absorbing `S ++ T` from an empty buffer is absorbing `S`, then what `S` left over ahead of `T`. -/
theorem absorb_append (d : Sd) (S T : List Byte) (h : d.carry = []) :
    d.absorb (S ++ T) = Sd.absorb { d.absorb S with carry := [] } ((d.absorb S).carry ++ T) := by
  have hread : 16 * (S.length / 16) ≤ S.length := Nat.mul_div_le _ _
  have hleft : S.drop (16 * (S.length / 16)) ++ T = (S ++ T).drop (16 * (S.length / 16)) :=
    (List.drop_append_of_le_length hread).symm
  have hblocks : (S ++ T).length / 16 = S.length / 16 + ((S ++ T).drop (16 * (S.length / 16))).length / 16 := by
    simp only [List.length_drop, List.length_append]; omega
  simp only [absorb_eq, h, List.nil_append, hleft]
  rw [hblocks, mixBlocks_add, mixBlocks_append _ _ _ _ hread, List.drop_drop, Nat.mul_add]

/-- R115's closed form: APPEND absorbs the carried bytes and the chunk as one sequence. -/
theorem append_eq_absorb (d : Sd) (chunk : List Byte) (h : d.carry.length ≤ 15) :
    d.append chunk =
      Sd.absorb { d with len := d.len + lengthOf chunk, carry := [] } (d.carry ++ chunk) := by
  by_cases hc : 0 < d.carry.length ∧ 16 ≤ d.carry.length + chunk.length
  · have hfirst : (d.carry ++ chunk.take (16 - d.carry.length)).length = 16 := by
      rw [List.length_append, List.length_take]; omega
    have hsplit : d.carry ++ chunk =
        (d.carry ++ chunk.take (16 - d.carry.length)) ++ chunk.drop (16 - d.carry.length) := by
      rw [List.append_assoc, List.take_append_drop]
    rw [append_completing d chunk hc.1 hc.2, hsplit, absorb_append _ _ _ rfl]
    simp [absorb_eq, hfirst, mixBlocks_succ, List.take_of_length_le hfirst.le, List.drop_of_length_le hfirst.le]
  · rw [append_not_completing d chunk hc]
    obtain hempty | hshort : d.carry = [] ∨ d.carry.length + chunk.length < 16 := by
      rw [← List.length_eq_zero_iff]; omega
    · simp [absorb_eq, hempty]
    · simp [absorb_eq, Nat.div_eq_of_lt hshort, Nat.div_eq_of_lt (Nat.lt_of_le_of_lt (Nat.le_add_left ..) hshort)]

/-- R111, corner case (a). -/
theorem append_carry_length_le (d : Sd) (chunk : List Byte) (h : d.carry.length ≤ 15) :
    (d.append chunk).carry.length ≤ 15 :=
  of_decide_eq_true (append_carryWf d chunk (decide_eq_true h))

/-- The chunk boundary between two APPENDs leaves no trace (R122). -/
theorem append_append (d : Sd) (a b : List Byte) (h : d.carry.length ≤ 15) :
    (d.append a).append b = d.append (a ++ b) := by
  rw [append_eq_absorb _ b (append_carry_length_le d a h), append_eq_absorb d a h, append_eq_absorb d (a ++ b) h,
    ← List.append_assoc, absorb_append _ (d.carry ++ a) b rfl]
  simp [absorb_eq, lengthOf_append, BitVec.add_assoc]

theorem append_nil (d : Sd) (h : d.carry.length ≤ 15) : d.append [] = d := by
  rw [append_not_completing d [] (by rw [List.length_nil]; omega)]
  simp [absorb_eq]


/-- Settles O33: `append_completing` when the chunk completes the carried block, else `append_not_completing`, which mixes
no block when the bytes carried and the chunk together fall short of one. -/
theorem appendFollowsTheDocument : Obligations.AppendFollowsTheDocument := by
  unfold Obligations.AppendFollowsTheDocument
  refine ⟨fun chunk s hcarry hfits => ⟨s.sd.append chunk, exec_append chunk s (decide_eq_true hfits),
    append_seed _ _, ?_, append_carry_length_le _ _ hcarry, fun h0 h => ?_, fun _ h => ?_, fun h0 => ?_⟩,
    by decide, by decide⟩
  · rw [append_len, BitVec.toNat_add, toNat_lengthOf, Nat.add_mod_mod]
  · rw [append_completing _ _ h0 h, absorb_eq]
    exact ⟨mixBlocks_eq_indexed _ _ _, by rw [List.length_drop]; rfl⟩
  · have hblocks : chunk.length / 16 = 0 := by omega
    rw [append_not_completing _ _ (by omega), absorb_eq, hblocks]
    exact ⟨rfl, rfl⟩
  · rw [append_not_completing _ _ (by omega), absorb_eq, List.length_eq_zero_iff.1 h0]
    exact ⟨mixBlocks_eq_indexed _ _ _, rfl⟩

theorem exec_append_nil (s : State) (h : s.sd.carry.length ≤ 15) : exec (.append []) s = .next s := by
  rw [exec_append [] s (decide_eq_true (Nat.zero_le _)), append_nil _ h, setSd_self]

/-- Settles O35: an empty chunk fits every port, and `append_nil` gives the context back. -/
theorem emptyAppendChangesNothing : Obligations.EmptyAppendChangesNothing := by
  unfold Obligations.EmptyAppendChangesNothing
  exact exec_append_nil

/-- R122, by induction on the chunks: `append_append` moves the first boundary away. -/
theorem execAll_appends (chunks : List (List Byte)) (s : State) (hcarry : s.sd.carry.length ≤ 15)
    (hfits : chunks.flatten.length ≤ s.params.maxChunk.val) :
    execAll (chunks.map .append) s = exec (.append chunks.flatten) s := by
  induction chunks generalizing s with
  | nil => exact (exec_append_nil s hcarry).symm
  | cons c cs ih =>
    have hlen : (c :: cs).flatten.length = c.length + cs.flatten.length := List.length_append
    have hc : exec (.append c) s = .next (s.setSd (s.sd.append c)) := exec_append _ _ (decide_eq_true (by omega))
    have hcs : cs.flatten.length ≤ (s.setSd (s.sd.append c)).params.maxChunk.val := by
      rw [setSd_params]; omega
    calc execAll ((c :: cs).map .append) s
        = execAll (cs.map .append) (s.setSd (s.sd.append c)) := execAll_cons_next hc
      _ = exec (.append cs.flatten) (s.setSd (s.sd.append c)) :=
          ih _ (by rw [setSd_sd]; exact append_carry_length_le _ _ hcarry) hcs
      _ = .next (s.setSd ((s.sd.append c).append cs.flatten)) := by
          rw [exec_append _ _ (decide_eq_true hcs), setSd_sd, setSd_setSd]
      _ = exec (.append (c :: cs).flatten) s := by
          rw [append_append _ _ _ hcarry, ← List.flatten_cons, exec_append _ _ (decide_eq_true hfits)]

/-- Settles O41: `execAll_appends`, and the FINAL after it sees the same state. -/
theorem chunkBoundariesDoNotMatter : Obligations.ChunkBoundariesDoNotMatter := by
  unfold Obligations.ChunkBoundariesDoNotMatter
  intro s chunks hcarry hfits
  have hall := execAll_appends chunks s hcarry hfits
  have hwhole := exec_append chunks.flatten s (decide_eq_true hfits)
  exact ⟨hall, by rw [execAll_append_next (hall.trans hwhole), execAll_cons_next hwhole]⟩

/-! ## FINAL (R112, R120) -/

theorem addLen_eq_ofNat (acc : Word) (n : Count) : addLen acc n = acc + BitVec.ofNat 32 n.toNat := by
  rw [addLen, trunc32, BitVec.ofNat_toNat]

theorem digest_eq (d : Sd) :
    d.digest = avalanche (tail ((if 16 ≤ d.len.toNat then merge d.lanes else smallInit d.seed) +
      BitVec.ofNat 32 d.len.toNat) d.carry) := by
  split
  next h => rw [Sd.digest, finish_merge _ _ _ _ h, addLen_eq_ofNat]
  next h => rw [Sd.digest, finish_short _ _ _ _ (Nat.lt_of_not_le h), addLen_eq_ofNat]

/-- Settles O36: `digest_eq` splits on the 64-bit length test of FINISH. -/
theorem finalRespondsWithTheDigest : Obligations.FinalRespondsWithTheDigest := by
  unfold Obligations.FinalRespondsWithTheDigest
  refine ⟨fun s => ?_, by decide, by decide⟩
  rw [exec_final, digest_eq]
  rfl

/-- After one APPEND to a fresh context, the context holds what XXH32 hands to FINISH (R120). -/
theorem digest_construct_append (seed : Word) (b : List Byte) :
    ((Sd.construct seed).append b).digest = xxh32 seed b := by
  rw [append_not_completing _ _ (by simp), absorb_eq, Sd.digest, xxh32]
  simp

/-- Settles O42: `digest_construct_append`, each command in turn. -/
theorem oneAppendEqualsOneShot : Obligations.OneAppendEqualsOneShot := by
  unfold Obligations.OneAppendEqualsOneShot
  intro s seed b hfits
  have hb : exec (.append b) (s.setSd (Sd.construct seed)) = .next (s.setSd ((Sd.construct seed).append b)) := by
    rw [exec_append b (s.setSd (Sd.construct seed)) (decide_eq_true hfits), setSd_sd, setSd_setSd]
  refine ⟨(s.setSd ((Sd.construct seed).append b)).respond (xxh32 seed b), ?_, by simp⟩
  rw [execAll_cons_next (exec_init seed s), execAll_cons_next hb, execAll_cons_next (exec_final _), setSd_sd,
    digest_construct_append, execAll_nil]

/-! ## INIT and RESET (R110, R113, R123) -/

/-- RESET is `INIT SEED`. -/
theorem exec_reset_eq_exec_init (s : State) : exec .reset s = exec (.init s.sd.seed) s := by
  rw [exec_reset, exec_init, restart_eq_construct]

/-- RESET after the context of a seed was constructed changes nothing. -/
theorem exec_reset_construct (seed : Word) (s : State) :
    exec .reset (s.setSd (Sd.construct seed)) = .next (s.setSd (Sd.construct seed)) := by
  rw [exec_reset, restart_eq_construct, setSd_sd, construct_seed, setSd_setSd]

/-- INIT alone writes SEED. -/
theorem eq_init_of_seed_ne {i : Instr} {s t : State} (h : exec i s = .next t) (hne : t.sd.seed ≠ s.sd.seed) :
    i = .init t.sd.seed := by
  obtain ⟨seed, data, -, -, rfl⟩ | ⟨seed, rfl, rfl⟩ | ⟨chunk, -, -, rfl⟩ | ⟨-, rfl⟩ | ⟨-, rfl⟩ := exec_cases h
  case inr.inl => simp
  all_goals simp at hne

/-- Settles O32: `exec_reset_construct` for INIT then RESET, `eq_init_of_seed_ne` for SEED. -/
theorem initConstructsTheContext : Obligations.InitConstructsTheContext := by
  unfold Obligations.InitConstructsTheContext
  refine ⟨fun seed s => ⟨rfl, ?_⟩, fun i s t => eq_init_of_seed_ne, by decide⟩
  rw [execAll_cons_next (exec_init seed s), execAll_cons_next (exec_reset_construct seed s), execAll_nil, exec_init]

/-- Settles O37: `exec_reset_eq_exec_init`, and `exec_reset_construct` for a RESET of a fresh context. -/
theorem resetRestoresTheFreshContext : Obligations.ResetRestoresTheFreshContext := by
  unfold Obligations.ResetRestoresTheFreshContext
  refine ⟨fun s => ⟨?_, exec_reset_eq_exec_init s, ?_⟩, fun s t h => ?_, by decide⟩
  · rw [exec_reset_eq_exec_init]
    rfl
  · have hs : exec .reset s = .next (s.setSd (Sd.construct s.sd.seed)) := exec_reset_eq_exec_init s
    rw [execAll_cons_next hs, execAll_cons_next (exec_reset_construct _ s), execAll_nil, hs]
  · cases h
    exact exec_reset_construct _ s

/-- Settles O38: the two first commands answer alike, by `exec_reset_eq_exec_init`. -/
theorem resetIsAFreshConstruction : Obligations.ResetIsAFreshConstruction := by
  unfold Obligations.ResetIsAFreshConstruction
  intro s later
  rw [execAll, execAll, exec_reset_eq_exec_init]

end Sys2Proof.Proofs.Streaming

/-! Requests and their encodings (R61 to R68 and R70 of 30_encoding.md): the decoder on the words the encoder makes, every
header as its two fields, and the bytes of a port. -/

namespace Sys2Proof.Proofs.Encoding

open Sys2Proof.Machine

/-! ## The decoder, field by field -/

@[simp] theorem decodeSd_init (arg : Word) (data : List Byte) : decodeSd ⟨header 0b00#2 arg, data⟩ = .init arg := by
  simp [decodeSd, opOf]

@[simp] theorem decodeSd_append (arg : Word) (data : List Byte) :
    decodeSd ⟨header 0b01#2 arg, data⟩ = .append (portBytes arg.toNat data) := by
  simp [decodeSd, opOf]

@[simp] theorem decodeSd_final (arg : Word) (data : List Byte) : decodeSd ⟨header 0b10#2 arg, data⟩ = .final := by
  simp [decodeSd, opOf]

@[simp] theorem decodeSd_reset (arg : Word) (data : List Byte) : decodeSd ⟨header 0b11#2 arg, data⟩ = .reset := by
  simp [decodeSd, opOf]

@[simp] theorem decodeOs_osFixed (len : Count) (seed : Word) (data : List Byte) :
    decodeOs ⟨osFixed len seed, data⟩ = .xxh32 seed (portBytes len.toNat data) := by
  simp [decodeOs]

/-- A payload whose length fits its length field is read back whole. -/
theorem portBytes_ofNat_length {k : Nat} (data : List Byte) (h : data.length < 2 ^ k) :
    portBytes (BitVec.ofNat k data.length).toNat data = data := by
  rw [BitVec.toNat_ofNat, Nat.mod_eq_of_lt h, portBytes_self]

theorem decode_encode {i : Instr} (h : i.wf = true) : decode (encode i) = i := by
  cases i with
  | xxh32 seed data =>
    rw [encode, decode, decodeOs_osFixed, portBytes_ofNat_length data (of_decide_eq_true h)]
  | append chunk =>
    rw [encode, decode, decodeSd_append, portBytes_ofNat_length chunk (of_decide_eq_true h)]
  | init seed => exact decodeSd_init seed []
  | final => exact decodeSd_final 0 []
  | reset => exact decodeSd_reset 0 []

/-- Settles O2: the fields of each format are read back, and the announced length is the payload's. -/
theorem decodeReadsBackEveryEncoding : Obligations.DecodeReadsBackEveryEncoding := by
  unfold Obligations.DecodeReadsBackEveryEncoding
  exact fun i => decode_encode

/-- Settles O1: fixed words, evaluated. -/
theorem headersOfTheTestVectorsDecode : Obligations.HeadersOfTheTestVectorsDecode := by
  unfold Obligations.HeadersOfTheTestVectorsDecode
  decide

/-! ## Every header is its two fields -/

theorem header_fields (cmd : Header) : header (opField cmd) (argField cmd) = cmd :=
  BitVec.extractLsb'_append_extractLsb'_eq_extractLsb' (w := 34) rfl |>.trans BitVec.extractLsb'_eq_self

theorem osFixed_fields (fixed : OsFixed) : osFixed (osLenField fixed) (osSeedField fixed) = fixed :=
  BitVec.extractLsb'_append_extractLsb'_eq_extractLsb' (w := 96) rfl |>.trans BitVec.extractLsb'_eq_self

/-- Two fields side by side, on the integers. -/
theorem toNat_append_eq {m n : Nat} (high : BitVec m) (low : BitVec n) :
    (high ++ low).toNat = 2 ^ n * high.toNat + low.toNat := by
  rw [BitVec.toNat_append, ← Nat.shiftLeft_add_eq_or_of_lt low.isLt, Nat.shiftLeft_eq, Nat.mul_comm]

theorem toNat_header_mod (code : BitVec 2) (arg : Word) : (header code arg).toNat % 2 ^ 32 = arg.toNat := by
  rw [header, toNat_append_eq, Nat.mul_add_mod, Nat.mod_eq_of_lt arg.isLt]

theorem toNat_osFixed_div (len : Count) (seed : Word) : (osFixed len seed).toNat / 2 ^ 32 = len.toNat := by
  rw [osFixed, toNat_append_eq, Nat.mul_add_div (by decide), Nat.div_eq_of_lt seed.isLt, Nat.add_zero]

/-- The mask of R64 keeps `op` and clears `arg`. -/
theorem header_and_mask (code : BitVec 2) (arg : Word) : header code arg &&& 0x300000000#34 = header code 0 := by
  have hmask : 0x300000000#34 = 0b11#2 ++ 0#32 := by decide
  have hcode : code &&& 0b11#2 = code := by revert code; decide
  rw [header, hmask, BitVec.and_append, hcode, BitVec.and_zero]
  rfl

theorem eq_header_of_and_mask {cmd : Header} {code : BitVec 2} (h : cmd &&& 0x300000000#34 = header code 0) :
    cmd = header code (argField cmd) := by
  have hop : header (opField cmd) 0 = header code 0 := by rw [← header_and_mask _ (argField cmd), header_fields, h]
  have hcode : opField cmd = code := by simpa using congrArg opField hop
  rw [← hcode, header_fields]

theorem code_cases (code : BitVec 2) : code = 0b00#2 ∨ code = 0b01#2 ∨ code = 0b10#2 ∨ code = 0b11#2 := by
  revert code; decide

/-- Settles O3: the header is its two fields, and a payload of the announced length is read whole. -/
theorem encodeRestoresEveryCanonicalRequest : Obligations.EncodeRestoresEveryCanonicalRequest := by
  unfold Obligations.EncodeRestoresEveryCanonicalRequest
  refine ⟨?init, ?append, ?finalOrReset, ?os⟩
  case init =>
    rintro ⟨cmd, data⟩ h rfl
    rw [eq_header_of_and_mask (cmd := cmd) (code := 0b00#2) h, decodeSd_init, encode]
  case append =>
    rintro ⟨cmd, data⟩ h hlen
    have hcmd := eq_header_of_and_mask (cmd := cmd) (code := 0b01#2) h
    generalize argField cmd = arg at hcmd
    have harg : data.length = arg.toNat := by rw [← toNat_header_mod 0b01#2 arg, ← hcmd]; exact hlen
    rw [hcmd, decodeSd_append, ← harg, portBytes_self, encode, harg, BitVec.ofNat_toNat, BitVec.setWidth_eq]
  case finalOrReset =>
    rintro ⟨cmd, data⟩ (rfl | rfl) rfl
    · exact congrArg encode (decodeSd_final 0 [])
    · exact congrArg encode (decodeSd_reset 0 [])
  case os =>
    rintro ⟨fixed, data⟩ hlen
    have hfixed := osFixed_fields fixed
    generalize osLenField fixed = len, osSeedField fixed = seed at hfixed
    subst hfixed
    have hn : data.length = len.toNat := by rw [← toNat_osFixed_div len seed]; exact hlen
    rw [decodeOs_osFixed, ← hn, portBytes_self, encode, hn, BitVec.ofNat_toNat, BitVec.setWidth_eq]

/-- A row looks at `op` alone. -/
theorem selects_header {row : OpRow} (hrow : row ∈ opRows) (code : BitVec 2) (arg : Word) :
    row.selects (header code arg) = row.selects (header code 0) := by
  have hmask : row.mask = 0x300000000#34 := by revert row; decide
  simp only [OpRow.selects, hmask, header_and_mask]

/-- Settles O5: with `arg` out of the way, four codes are left to compare. -/
theorem opcodeRowsAgreeWithDecoder : Obligations.OpcodeRowsAgreeWithDecoder := by
  unfold Obligations.OpcodeRowsAgreeWithDecoder
  intro cmd
  have hselects : opRows.filter (fun row => row.selects cmd) =
      opRows.filter (fun row => row.selects (header (opField cmd) 0)) :=
    List.filter_congr fun row hrow => by rw [← selects_header hrow _ (argField cmd), header_fields]
  rw [hselects]
  generalize opField cmd = code
  revert code
  decide

/-! ## Requests within the port (R61, R63, R67) -/

/-- Every instruction within the port envelope completes. -/
theorem exec_completes {i : Instr} {s : State} (h : inEnvelope s.params i = true) : ∃ t, exec i s = .next t := by
  cases i with
  | xxh32 seed data => exact ⟨_, exec_xxh32 seed data s h⟩
  | init seed => exact ⟨_, exec_init seed s⟩
  | append chunk => exact ⟨_, exec_append chunk s h⟩
  | final => exact ⟨_, exec_final s⟩
  | reset => exact ⟨_, exec_reset s⟩

/-- Settles O4: the four codes in turn; each command read is within the port, so it completes. -/
theorem everyHeaderIsExactlyOneCommand : Obligations.EveryHeaderIsExactlyOneCommand := by
  unfold Obligations.EveryHeaderIsExactlyOneCommand
  refine ⟨?oneCommand, ?sdLegal, ?osLegal⟩
  case oneCommand =>
    rintro ⟨cmd, data⟩
    rw [← header_fields cmd]
    generalize opField cmd = code, argField cmd = arg
    simp only [header_and_mask, toNat_header_mod]
    obtain rfl | rfl | rfl | rfl := code_cases code
    · refine .inl ⟨rfl, (decodeSd_init arg data).trans (congrArg _ (BitVec.eq_of_toNat_eq ?_))⟩
      rw [BitVec.toNat_ofNat, toNat_header_mod]
    · exact .inr (.inl ⟨rfl, _, decodeSd_append arg data, portBytes_length _ _⟩)
    · exact .inr (.inr (.inl ⟨rfl, decodeSd_final arg data⟩))
    · exact .inr (.inr (.inr ⟨rfl, decodeSd_reset arg data⟩))
  case sdLegal =>
    rintro ⟨cmd, data⟩ s
    rw [← header_fields cmd]
    generalize opField cmd = code, argField cmd = arg
    simp only [header_and_mask, toNat_header_mod]
    obtain rfl | rfl | rfl | rfl := code_cases code
    · exact fun _ => ⟨_, congrArg (exec · s) (decodeSd_init arg data)⟩
    · intro hfits
      rw [decodeSd_append]
      exact exec_completes (decide_eq_true ((portBytes_length _ _).trans_le (hfits rfl)))
    · exact fun _ => ⟨_, congrArg (exec · s) (decodeSd_final arg data)⟩
    · exact fun _ => ⟨_, congrArg (exec · s) (decodeSd_reset arg data)⟩
  case osLegal =>
    rintro ⟨fixed, data⟩ s
    rw [← osFixed_fields fixed, decodeOs_osFixed, toNat_osFixed_div]
    exact fun hfits => exec_completes (decide_eq_true ((portBytes_length _ _).trans_le hfits))

theorem portBytes_append_of_le {n : Nat} {data : List Byte} (h : n ≤ data.length) (more : List Byte) :
    portBytes n (data ++ more) = portBytes n data := by
  have hlisted : n - data.length = 0 := Nat.sub_eq_zero_of_le h
  have hmore : n - (data ++ more).length = 0 := by rw [List.length_append]; omega
  rw [portBytes, portBytes, List.take_append_of_le_length h, hlisted, hmore]

/-- Settles O6: the chunk is `portBytes` of the announced length. -/
theorem appendPayloadIsTheFirstPortBytes : Obligations.AppendPayloadIsTheFirstPortBytes := by
  unfold Obligations.AppendPayloadIsTheFirstPortBytes
  refine fun n data => ⟨portBytes n.toNat data, decodeSd_append n data, portBytes_length _ _,
    portBytes_getD _ _, fun more h => ?_, ?_, fun s h => exec_append_refused _ s (decide_eq_false ?_)⟩
  · rw [← portBytes_append_of_le h more]
    exact decodeSd_append n _
  · rintro rfl
    exact List.length_eq_zero_iff.1 (portBytes_length _ _)
  · rw [portBytes_length]
    exact Nat.not_le_of_lt h

/-- Settles O7: the data is `portBytes` of the announced length. -/
theorem oneShotRequestIsSeedLengthAndBytes : Obligations.OneShotRequestIsSeedLengthAndBytes := by
  unfold Obligations.OneShotRequestIsSeedLengthAndBytes
  refine fun n seed data => ⟨portBytes n.toNat data, decodeOs_osFixed n seed data, portBytes_length _ _,
    portBytes_getD _ _, fun more h => ?_, fun s h => exec_xxh32_refused seed _ s (decide_eq_false ?_)⟩
  · rw [← portBytes_append_of_le h more]
    exact decodeOs_osFixed n seed _
  · rw [portBytes_length]
    exact Nat.not_le_of_lt h

/-! ## The encoding of a line (R70) -/

theorem line_encoding_sd {i : Instr} {c : SdCommand} (h : encode i = .sd c) :
    (Line.command i).encoding = some (hexDigits 9 c.cmd.toNat, c.data) := by
  rw [Line.encoding, h]

/-- The first of `k + 1` digits is the one at weight `16^k`. -/
theorem hexDigits_head? (k n : Nat) : (hexDigits (k + 1) n).head? = some (hexDigit (n / 16 ^ k % 16)) := by
  induction k generalizing n with
  | zero => simp [hexDigits]
  | succ k ih => rw [hexDigits, List.head?_append, ih, Nat.div_div_eq_div_mul, Nat.pow_succ', Option.some_or]

/-- Every command of SD is encoded as a header and its payload. -/
theorem encode_eq_sd {i : Instr} (h : ∀ seed data, i ≠ .xxh32 seed data) :
    ∃ c : SdCommand, encode i = .sd c ∧ c.data = i.payload := by
  cases i with
  | xxh32 seed data => exact absurd rfl (h seed data)
  | init seed => exact ⟨_, rfl, rfl⟩
  | append chunk => exact ⟨_, rfl, rfl⟩
  | final => exact ⟨_, rfl, rfl⟩
  | reset => exact ⟨_, rfl, rfl⟩

/-- Settles O54: nine digits hold 36 bits, the header has 34, so the top digit is below 4. -/
theorem lineEncodingIsNineDigitsAndPayload : Obligations.LineEncodingIsNineDigitsAndPayload := by
  unfold Obligations.LineEncodingIsNineDigitsAndPayload
  refine ⟨fun i hi => ?_, rfl⟩
  obtain ⟨c, hc, hdata⟩ := encode_eq_sd hi
  have hlt : c.cmd.toNat < 2 ^ 34 := c.cmd.isLt
  refine ⟨c, hexDigits 9 c.cmd.toNat, hc, hdata, line_encoding_sd hc, hexDigits_length _ _, hexDigits_subset _ _, ?_, ?_⟩
  · rw [hexNumber_hexDigits]
    omega
  · have htop : c.cmd.toNat / 16 ^ 8 % 16 < 4 := by omega
    rw [hexDigits_head?]
    interval_cases c.cmd.toNat / 16 ^ 8 % 16 <;> decide

end Sys2Proof.Proofs.Encoding

/-! What an instruction and a step leave of each part of the state, said once (table R20 of 10_state.md; R8, R9, R60, R133,
R152), and the statements on one step that follow. -/

namespace Sys2Proof.Proofs.Steps

open Sys2Proof.Machine Sys2Proof.Proofs.Encoding

/-! ## The parts of the state after an instruction -/

/-- What an instruction makes of the digest context (table R20). -/
def sdAfter : Instr → Sd → Sd
  | .xxh32 _ _, d => d
  | .init seed, _ => Sd.construct seed
  | .append chunk, d => d.append chunk
  | .final, d => d
  | .reset, d => d.restart

/-- What an instruction responds, from the context it finds (R69). -/
def responsesOf : Instr → Sd → List Word
  | .xxh32 _ _, _ => []
  | .init _, _ => []
  | .append _, _ => []
  | .final, d => [d.digest]
  | .reset, _ => []

section
variable {i : Instr} {s t : State} (h : exec i s = .next t)
include h

theorem exec_sd : t.sd = sdAfter i s.sd := by
  obtain ⟨seed, data, rfl, -, rfl⟩ | ⟨seed, rfl, rfl⟩ | ⟨chunk, rfl, -, rfl⟩ | ⟨rfl, rfl⟩ | ⟨rfl, rfl⟩ := exec_cases h <;>
    simp [sdAfter]

theorem exec_responses : t.responses = s.responses ++ responsesOf i s.sd := by
  obtain ⟨seed, data, rfl, -, rfl⟩ | ⟨seed, rfl, rfl⟩ | ⟨chunk, rfl, -, rfl⟩ | ⟨rfl, rfl⟩ | ⟨rfl, rfl⟩ := exec_cases h <;>
    simp [responsesOf]

theorem exec_params : t.params = s.params := by
  obtain ⟨seed, data, -, -, rfl⟩ | ⟨seed, -, rfl⟩ | ⟨chunk, -, -, rfl⟩ | ⟨-, rfl⟩ | ⟨-, rfl⟩ := exec_cases h <;> simp

theorem exec_pending : t.pending = s.pending := by
  obtain ⟨seed, data, -, -, rfl⟩ | ⟨seed, -, rfl⟩ | ⟨chunk, -, -, rfl⟩ | ⟨-, rfl⟩ | ⟨-, rfl⟩ := exec_cases h <;> simp

/-- Only XXH32 puts a value on `os_digest`, and no instruction takes a free value. -/
theorem exec_osDigests (hi : ∀ seed data, i ≠ .xxh32 seed data) :
    t.osDigests = s.osDigests ∧ t.freeCount = s.freeCount := by
  obtain ⟨seed, data, rfl, -, -⟩ | ⟨seed, -, rfl⟩ | ⟨chunk, -, -, rfl⟩ | ⟨-, rfl⟩ | ⟨-, rfl⟩ := exec_cases h
  · exact absurd rfl (hi seed data)
  all_goals simp

end

/-- R61, R63, U7: the two requests that have no meaning. -/
theorem exec_eq_refused_iff {i : Instr} {s : State} {r : Refusal} :
    exec i s = .refused r ↔
      (∃ seed data, i = .xxh32 seed data ∧ s.params.maxLen.val < data.length ∧ r = .lengthBeyondPort) ∨
      (∃ chunk, i = .append chunk ∧ s.params.maxChunk.val < chunk.length ∧ r = .chunkBeyondPort) := by
  constructor
  · intro h
    cases i with
    | xxh32 seed data =>
      obtain hfits | hbeyond := le_or_gt data.length s.params.maxLen.val
      · cases (exec_xxh32 seed data s (decide_eq_true hfits)).symm.trans h
      · cases (exec_xxh32_refused seed data s (decide_eq_false hbeyond.not_ge)).symm.trans h
        exact .inl ⟨seed, data, rfl, hbeyond, rfl⟩
    | append chunk =>
      obtain hfits | hbeyond := le_or_gt chunk.length s.params.maxChunk.val
      · cases (exec_append chunk s (decide_eq_true hfits)).symm.trans h
      · cases (exec_append_refused chunk s (decide_eq_false hbeyond.not_ge)).symm.trans h
        exact .inr ⟨chunk, rfl, hbeyond, rfl⟩
    | init seed => cases h
    | final => cases h
    | reset => cases h
  · rintro (⟨seed, data, rfl, hbeyond, rfl⟩ | ⟨chunk, rfl, hbeyond, rfl⟩)
    · exact exec_xxh32_refused seed data s (decide_eq_false hbeyond.not_ge)
    · exact exec_append_refused chunk s (decide_eq_false hbeyond.not_ge)

/-! ## What an event asks for, and the step that carries it out -/

theorem action_event (r : Request) : (Request.event r).action = .run (decode r) := by
  cases r <;> rfl

theorem action_eventOf {i : Instr} (h : i.wf = true) : (eventOf i).action = .run i := by
  rw [eventOf, action_event, decode_encode h]

theorem action_rst {pins : SdPins} (h : pins.rst = true) : (Event.sd pins).action = .reset := by
  simp [Event.action, h]

theorem action_not_accepted {pins : SdPins} (hrst : pins.rst = false) (h : (pins.valid && pins.ready) = false) :
    (Event.sd pins).action = .hold := by
  simp [Event.action, SdPins.accepts, hrst, h]

section
variable {s : State} {e : Event} {rest : List Event} (hp : s.pending = e :: rest)
include hp

theorem step_of_run {i : Instr} (ha : e.action = .run i) : step s = exec i (s.withPending rest) := by
  rw [step_event s e rest hp, ha, perform]

theorem step_of_hold (ha : e.action = .hold) : step s = .next (s.withPending rest) := by
  rw [step_event s e rest hp, ha, perform]

theorem step_of_reset (ha : e.action = .reset) : step s = .next (hardwareReset (s.withPending rest)) := by
  rw [step_event s e rest hp, ha, perform]

end

/-- Settles O8: the action of an accepted request is to run what the decoder reads. -/
theorem stepRunsTheAcceptedRequest : Obligations.StepRunsTheAcceptedRequest := by
  unfold Obligations.StepRunsTheAcceptedRequest
  exact ⟨fun s c rest hp => step_of_run hp (action_event (.sd c)),
    fun s r rest hp => step_of_run hp (action_event (.os r))⟩

/-- Settles O9: the decoder reads the presented instruction back, `action_eventOf`. -/
theorem presentedInstructionRuns : Obligations.PresentedInstructionRuns := by
  unfold Obligations.PresentedInstructionRuns
  exact fun s i rest hwf hp => step_of_run hp (action_eventOf hwf)

/-- Settles O10: the request of the word is the next input, and taking it gives the state back. -/
theorem fetchWordRunsItsInstruction : Obligations.FetchWordRunsItsInstruction := by
  unfold Obligations.FetchWordRunsItsInstruction
  intro s nbits w i hdecode
  rw [decodeTableWord] at hdecode
  rw [State.withFetchWord]
  cases hr : requestOfWord nbits w with
  | error _ => simp [hr] at hdecode
  | ok r =>
    have hi : decode r = i := by simpa [hr] using hdecode
    exact step_of_run (withPending_pending _ _) (hi ▸ action_event r)

/-- Settles O11: without a request to carry out, the step holds. -/
theorem unacceptedCommandChangesNothing : Obligations.UnacceptedCommandChangesNothing := by
  unfold Obligations.UnacceptedCommandChangesNothing
  exact ⟨step_idle, fun s pins rest hp hrst h => step_of_hold hp (action_not_accepted hrst h)⟩

theorem construct_zero : Sd.construct 0 = ⟨0x00000000, ⟨0x24234428, 0x85EBCA77, 0x00000000, 0x61C8864F⟩, [], 0⟩ := by
  decide

/-- R150 with the reset values written out. -/
theorem hardwareReset_eq (s : State) :
    hardwareReset s =
      s.setSd ⟨0x00000000, ⟨0x24234428, 0x85EBCA77, 0x00000000, 0x61C8864F⟩, [], 0⟩ := by
  rw [← construct_zero]
  rfl

/-- Settles O12: `rst` makes the event a reset, whatever else is on the port. -/
theorem hardwareResetLeavesTheDefaultContext : Obligations.HardwareResetLeavesTheDefaultContext := by
  unfold Obligations.HardwareResetLeavesTheDefaultContext
  refine ⟨fun s pins rest hp hrst => ?_, construct_zero, rfl, rfl⟩
  rw [step_of_reset hp (action_rst hrst), hardwareReset_eq]
  rfl

/-- Settles O13: a cut command is a reset and nothing else. -/
theorem cutCommandIsDiscardedWhole : Obligations.CutCommandIsDiscardedWhole := by
  unfold Obligations.CutCommandIsDiscardedWhole
  intro s c rest hp
  rw [step_of_reset hp rfl, hardwareReset_eq]
  rfl

/-- Settles O14: the unsettled sample touches the record of samples and the counter alone. -/
theorem unsettledOutputIsAFreeValue : Obligations.UnsettledOutputIsAFreeValue := by
  unfold Obligations.UnsettledOutputIsAFreeValue
  intro s r rest hp
  rw [step_event s _ rest hp]
  rfl

theorem step_eq_refused_iff {s : State} {r : Refusal} :
    step s = .refused r ↔
      ∃ e rest i, s.pending = e :: rest ∧ e.runs i ∧ exec i (s.withPending rest) = .refused r := by
  constructor
  · intro h
    cases hp : s.pending with
    | nil => cases (step_idle s hp).symm.trans h
    | cons e rest =>
      rw [step_event s e rest hp] at h
      cases ha : e.action with
      | run i => rw [ha] at h; exact ⟨e, rest, i, rfl, ha, h⟩
      | hold => rw [ha] at h; cases h
      | reset => rw [ha] at h; cases h
      | sampleUnsettled => rw [ha] at h; cases h
  · rintro ⟨e, rest, i, hp, hrun, h⟩
    rw [step_of_run hp hrun, h]

/-- Settles O15: `Fault` has no value, and a step refuses what the instruction it runs refuses. -/
theorem onlyTheEnvelopeIsRefused : Obligations.OnlyTheEnvelopeIsRefused := by
  unfold Obligations.OnlyTheEnvelopeIsRefused
  refine ⟨fun s f => (nomatch f), fun s r => step_eq_refused_iff.trans ?_⟩
  simp only [exec_eq_refused_iff, withPending_params]
  constructor
  · rintro ⟨e, rest, i, hp, hrun, ⟨seed, data, rfl, hbeyond⟩ | ⟨chunk, rfl, hbeyond⟩⟩
    · exact ⟨e, rest, hp, .inl ⟨seed, data, hrun, hbeyond⟩⟩
    · exact ⟨e, rest, hp, .inr ⟨chunk, hrun, hbeyond⟩⟩
  · rintro ⟨e, rest, hp, ⟨seed, data, hrun, hbeyond⟩ | ⟨chunk, hrun, hbeyond⟩⟩
    · exact ⟨e, rest, _, hp, hrun, .inl ⟨seed, data, rfl, hbeyond⟩⟩
    · exact ⟨e, rest, _, hp, hrun, .inr ⟨chunk, rfl, hbeyond⟩⟩

/-! ## The two blocks (R2, R49, R103) -/

theorem decodeSd_ne_xxh32 (c : SdCommand) (seed : Word) (data : List Byte) : decodeSd c ≠ .xxh32 seed data := by
  rw [decodeSd]
  split <;> exact nofun

/-- An event at the SD port runs no XXH32 and takes no unsettled sample. -/
theorem sd_event_action {e : Event} (h : (∃ pins, e = .sd pins) ∨ ∃ c, e = .cut c) :
    e.action = .hold ∨ e.action = .reset ∨ ∃ i, e.action = .run i ∧ ∀ seed data, i ≠ .xxh32 seed data := by
  obtain ⟨pins, rfl⟩ | ⟨c, rfl⟩ := h
  · rw [Event.action]
    split
    · exact .inr (.inl rfl)
    · split
      · exact .inr (.inr ⟨_, rfl, decodeSd_ne_xxh32 _⟩)
      · exact .inl rfl
  · exact .inr (.inl rfl)

/-- An event at the OS port leaves the context and the responses of SD. -/
theorem step_os_event {s t : State} {e : Event} {rest : List Event} {r : OsRequest} (hp : s.pending = e :: rest)
    (he : e = .os r ∨ e = .osUnsettled r) (h : step s = .next t) : t.sd = s.sd ∧ t.responses = s.responses := by
  obtain rfl | rfl := he
  · rw [step_of_run hp (action_event (.os r)), decode, decodeOs] at h
    rw [exec_sd h, exec_responses h]
    simp [sdAfter, responsesOf]
  · rw [step_event s _ rest hp] at h
    cases h
    simp

/-- An event at the SD port leaves what the host took from `os_digest`. -/
theorem step_sd_event {s t : State} {e : Event} {rest : List Event} (hp : s.pending = e :: rest)
    (he : (∃ pins, e = .sd pins) ∨ ∃ c, e = .cut c) (h : step s = .next t) :
    t.osDigests = s.osDigests ∧ t.freeCount = s.freeCount := by
  obtain ha | ha | ⟨i, ha, hi⟩ := sd_event_action he
  · cases (step_of_hold hp ha).symm.trans h
    simp
  · cases (step_of_reset hp ha).symm.trans h
    simp
  · rw [step_of_run hp ha] at h
    simpa using exec_osDigests h hi

theorem exec_xxh32_getLast? {seed : Word} {data : List Byte} {s t : State} (h : exec (.xxh32 seed data) s = .next t) :
    t.osDigests.getLast? = some (xxh32 seed data) := by
  obtain ⟨_, _, heq, -, rfl⟩ | ⟨_, heq, -⟩ | ⟨_, heq, -⟩ | ⟨heq, -⟩ | ⟨heq, -⟩ := exec_cases h <;> cases heq
  simp

/-- Settles O31: one lemma for the events of each port, and the value of XXH32 from its operands alone. -/
theorem theTwoBlocksShareNothing : Obligations.TheTwoBlocksShareNothing := by
  unfold Obligations.TheTwoBlocksShareNothing
  exact ⟨fun s t e rest r => step_os_event, fun s t e rest => step_sd_event,
    fun seed data s s' t t' h h' => (exec_xxh32_getLast? h).trans (exec_xxh32_getLast? h').symm⟩

end Sys2Proof.Proofs.Steps

/-! What every step keeps (R21 to R25 and R69): the digest context after a step, its invariants, and which steps change
SEED, LEN, the lanes and the responses. -/

namespace Sys2Proof.Proofs.Invariants

open Sys2Proof.Machine Sys2Proof.Proofs.Streaming Sys2Proof.Proofs.Steps

/-! ## The context after a step -/

/-- What an action makes of the digest context. -/
def sdAfterAction : Action → Sd → Sd
  | .hold, d => d
  | .reset, _ => Sd.construct 0
  | .run i, d => sdAfter i d
  | .sampleUnsettled, d => d

section
variable {s t : State} (h : step s = .next t)
include h

theorem step_sd {e : Event} {rest : List Event} (hp : s.pending = e :: rest) :
    t.sd = sdAfterAction e.action s.sd := by
  obtain ⟨hnil, -⟩ | ⟨e', rest', hp', hstep⟩ := step_cases h
  · exact absurd (hnil.symm.trans hp) nofun
  · obtain ⟨rfl, rfl⟩ := List.cons.inj (hp.symm.trans hp')
    obtain ⟨ha, rfl⟩ | ⟨ha, rfl⟩ | ⟨ha, rfl⟩ | ⟨i, ha, hexec⟩ := hstep
    case inr.inr.inr => rw [exec_sd hexec, ha, withPending_sd, sdAfterAction]
    all_goals simp [ha, sdAfterAction]

theorem step_params : t.params = s.params := by
  obtain ⟨-, rfl⟩ | ⟨e, rest, -, ⟨-, rfl⟩ | ⟨-, rfl⟩ | ⟨-, rfl⟩ | ⟨i, -, hexec⟩⟩ := step_cases h
  case inr.inr.inr.inr => rw [exec_params hexec, withPending_params]
  all_goals simp

/-- The only ways a step writes the context: INIT, APPEND, RESET and the hardware reset (table R20). -/
theorem step_sd_cases :
    t.sd = s.sd ∨ ∃ e rest, s.pending = e :: rest ∧
      ((∃ seed, e.runs (.init seed) ∧ t.sd = Sd.construct seed) ∨
       (∃ chunk, e.runs (.append chunk) ∧ t.sd = s.sd.append chunk) ∨
       (e.runs .reset ∧ t.sd = Sd.construct s.sd.seed) ∨
       (e.action = .reset ∧ t.sd = Sd.construct 0)) := by
  cases hp : s.pending with
  | nil => cases (step_idle s hp).symm.trans h; exact .inl rfl
  | cons e rest =>
    have hsd := step_sd h hp
    cases ha : e.action with
    | hold => exact .inl (by rw [hsd, ha, sdAfterAction])
    | sampleUnsettled => exact .inl (by rw [hsd, ha, sdAfterAction])
    | reset => exact .inr ⟨e, rest, rfl, .inr (.inr (.inr ⟨ha, by rw [hsd, ha, sdAfterAction]⟩))⟩
    | run i =>
      rw [ha, sdAfterAction] at hsd
      cases i with
      | xxh32 seed data => exact .inl hsd
      | final => exact .inl hsd
      | init seed => exact .inr ⟨e, rest, rfl, .inl ⟨seed, ha, hsd⟩⟩
      | append chunk => exact .inr ⟨e, rest, rfl, .inr (.inl ⟨chunk, ha, hsd⟩)⟩
      | reset => exact .inr ⟨e, rest, rfl, .inr (.inr (.inl ⟨ha, hsd.trans (restart_eq_construct _)⟩))⟩

/-- What holds of every fresh context and what APPEND keeps, every step keeps. -/
theorem step_preserves {P : Sd → Prop} (hconstruct : ∀ seed, P (Sd.construct seed))
    (happend : ∀ d chunk, P d → P (d.append chunk)) (hs : P s.sd) : P t.sd := by
  obtain hsd | ⟨e, rest, -, ⟨seed, -, hsd⟩ | ⟨chunk, -, hsd⟩ | ⟨-, hsd⟩ | ⟨-, hsd⟩⟩ := step_sd_cases h <;> rw [hsd]
  · exact hs
  · exact hconstruct seed
  · exact happend _ chunk hs
  · exact hconstruct _
  · exact hconstruct 0

end

/-! ## CARRY_LEN and LEN (R23, R25) -/

theorem append_carry_length (d : Sd) (chunk : List Byte) (h : d.carry.length ≤ 15) :
    (d.append chunk).carry.length = (d.carry.length + chunk.length) % 16 := by
  rw [append_eq_absorb d chunk h, absorb_eq, List.nil_append, List.length_drop, List.length_append]
  omega

/-- 16 divides 2^64, so CARRY_LEN follows LEN modulo 16 through the wrap. -/
theorem append_wf (d : Sd) (chunk : List Byte) (hcarry : carryWf d.carry = true) (h : d.wf = true) :
    (d.append chunk).wf = true := by
  have hfill : d.carry.length = d.len.toNat % 16 := of_decide_eq_true h
  refine decide_eq_true ?_
  rw [Sd.carryLen, append_carry_length d chunk (of_decide_eq_true hcarry), append_len, BitVec.toNat_add, toNat_lengthOf]
  omega

/-- Settles O46: `append_wf` and `append_carryWf` for APPEND; no step writes the port capacities. -/
theorem stepKeepsTheStateLegal : Obligations.StepKeepsTheStateLegal := by
  unfold Obligations.StepKeepsTheStateLegal
  intro s t hwf h
  simp only [State.wf, Bool.and_eq_true] at hwf ⊢
  obtain ⟨hsd, hparams⟩ := hwf
  refine ⟨step_preserves h (P := fun d => d.wf = true ∧ carryWf d.carry = true) (fun seed => ⟨rfl, rfl⟩)
    (fun d chunk hd => ⟨append_wf d chunk hd.2 hd.1, append_carryWf d chunk hd.2⟩) hsd, ?_⟩
  rwa [step_params h]

/-! ## The context as a function of the stream (R25) -/

/-- R115's closed form with the block loop indexed as the rule writes it. -/
theorem append_eq_indexed (d : Sd) (chunk : List Byte) (h : d.carry.length ≤ 15) :
    d.append chunk =
      { d with
        lanes := (List.range ((d.carry ++ chunk).length / 16)).foldl
          (fun v j => block v (slice (d.carry ++ chunk) (16 * j) 16)) d.lanes
        carry := (d.carry ++ chunk).drop (16 * ((d.carry ++ chunk).length / 16))
        len := d.len + lengthOf chunk } := by
  rw [append_eq_absorb d chunk h, absorb_eq, mixBlocks_eq_indexed, List.nil_append]

/-- The context of a stream is what one APPEND of it leaves in a fresh context. -/
theorem ofStream_eq_append (seed : Word) (stream : List Byte) :
    Sd.ofStream seed stream = (Sd.construct seed).append stream := by
  rw [append_eq_indexed _ _ (Nat.zero_le _)]
  simp [Sd.ofStream, lengthOf]

theorem ofStream_nil (seed : Word) : Sd.ofStream seed [] = Sd.construct seed := rfl

theorem ofStream_append (seed : Word) (stream chunk : List Byte) :
    (Sd.ofStream seed stream).append chunk = Sd.ofStream seed (stream ++ chunk) := by
  rw [ofStream_eq_append, ofStream_eq_append, append_append _ _ _ (Nat.zero_le _)]

theorem append_fromStream (d : Sd) (chunk : List Byte) : d.FromStream → (d.append chunk).FromStream := by
  rintro ⟨stream, hd⟩
  refine ⟨stream ++ chunk, ?_⟩
  rw [append_seed, ← ofStream_append, ← hd]

/-- Settles O48: a fresh context is that of the empty stream, and APPEND extends the stream. -/
theorem contextIsAFunctionOfTheStream : Obligations.ContextIsAFunctionOfTheStream := by
  unfold Obligations.ContextIsAFunctionOfTheStream
  refine ⟨fun s t hs h => step_preserves h (fun seed => ⟨[], (ofStream_nil seed).symm⟩) append_fromStream hs,
    ofStream_append, fun seed stream hlt => ?_⟩
  have hlen : (Sd.ofStream seed stream).len.toNat = stream.length := by
    rw [Sd.ofStream, BitVec.toNat_ofNat, Nat.mod_eq_of_lt hlt]
  rw [hlen]
  omega

/-- Settles O47: the reset context is `Sd.construct 0`. -/
theorem resetStateIsLegal : Obligations.ResetStateIsLegal := by
  unfold Obligations.ResetStateIsLegal
  exact ⟨by decide, (ofStream_nil 0).symm, [], (ofStream_nil 0).symm⟩

/-! ## Which steps write a register (R21, R22, R24) -/

/-- Settles O49: of the four writes of the context, APPEND and RESET keep SEED. -/
theorem seedIsWrittenByInitAndResetOnly : Obligations.SeedIsWrittenByInitAndResetOnly := by
  unfold Obligations.SeedIsWrittenByInitAndResetOnly
  intro s t h hne
  obtain hsd | ⟨e, rest, hp, ⟨seed, hrun, hsd⟩ | ⟨chunk, -, hsd⟩ | ⟨-, hsd⟩ | ⟨ha, hsd⟩⟩ := step_sd_cases h <;>
    rw [hsd] at hne ⊢
  · exact absurd rfl hne
  · exact ⟨e, rest, hp, .inl hrun⟩
  · exact absurd (append_seed _ _) hne
  · exact absurd (construct_seed _) hne
  · exact ⟨e, rest, hp, .inr ⟨ha, rfl⟩⟩

theorem toNat_append_len (d : Sd) (chunk : List Byte) :
    (d.append chunk).len.toNat = (d.len.toNat + chunk.length) % 2 ^ 64 := by
  rw [append_len, BitVec.toNat_add, toNat_lengthOf, Nat.add_mod_mod]

/-- Settles O50: `step_sd` for what each event does to LEN, `step_sd_cases` for which events do anything to it. -/
theorem lenCountsAppendedBytes : Obligations.LenCountsAppendedBytes := by
  unfold Obligations.LenCountsAppendedBytes
  refine fun s t h => ⟨fun e rest hp => ⟨fun chunk hrun => ?_, fun hclear => ?_⟩, fun hne => ?_⟩
  · rw [step_sd h hp, hrun]
    exact toNat_append_len _ _
  · obtain ⟨seed, ha⟩ | ha | ha := hclear <;> rw [step_sd h hp, ha] <;> rfl
  · obtain hsd | ⟨e, rest, hp, ⟨seed, hrun, -⟩ | ⟨chunk, hrun, -⟩ | ⟨hrun, -⟩ | ⟨ha, -⟩⟩ := step_sd_cases h
    · exact absurd (by rw [hsd]) hne
    · exact ⟨e, rest, hp, .inr (.inl ⟨seed, hrun⟩)⟩
    · exact ⟨e, rest, hp, .inl ⟨chunk, hrun⟩⟩
    · exact ⟨e, rest, hp, .inr (.inr (.inl hrun))⟩
    · exact ⟨e, rest, hp, .inr (.inr (.inr ha))⟩

/-- An APPEND that completes no block leaves the lanes (R111(f)). -/
theorem append_lanes_of_lt (d : Sd) (chunk : List Byte) (h : d.carry.length + chunk.length < 16) :
    (d.append chunk).lanes = d.lanes := by
  have hblocks : chunk.length / 16 = 0 := by omega
  rw [append_not_completing d chunk (by omega), absorb_eq, hblocks, mixBlocks_zero]

/-- Settles O51: `append_lanes_of_lt` rules out the APPENDs that complete no block. -/
theorem lanesChangeOnlyWhenABlockCompletes : Obligations.LanesChangeOnlyWhenABlockCompletes := by
  unfold Obligations.LanesChangeOnlyWhenABlockCompletes
  intro s t h hne
  obtain hsd | ⟨e, rest, hp, ⟨seed, hrun, -⟩ | ⟨chunk, hrun, hsd⟩ | ⟨hrun, -⟩ | ⟨ha, -⟩⟩ := step_sd_cases h
  · exact absurd (by rw [hsd]) hne
  · exact ⟨e, rest, hp, .inr (.inl ⟨seed, hrun⟩)⟩
  · refine ⟨e, rest, hp, .inl ⟨chunk, hrun, Nat.le_of_not_lt fun hlt => hne ?_⟩⟩
    rw [hsd, append_lanes_of_lt _ _ hlt]
  · exact ⟨e, rest, hp, .inr (.inr (.inl hrun))⟩
  · exact ⟨e, rest, hp, .inr (.inr (.inr ha))⟩

/-! ## Responses (R69) -/

theorem responsesOf_of_ne_final {i : Instr} (d : Sd) (h : i ≠ .final) : responsesOf i d = [] := by
  cases i with
  | final => exact absurd rfl h
  | xxh32 seed data => rfl
  | init seed => rfl
  | append chunk => rfl
  | reset => rfl

/-- A step that runs no FINAL responds nothing. -/
theorem step_responses_of_not_final {s t : State} (h : step s = .next t)
    (hno : ¬∃ e rest, s.pending = e :: rest ∧ e.runs .final) : t.responses = s.responses := by
  obtain ⟨-, rfl⟩ | ⟨e, rest, hp, ⟨-, rfl⟩ | ⟨-, rfl⟩ | ⟨-, rfl⟩ | ⟨i, ha, hexec⟩⟩ := step_cases h
  case inr.inr.inr.inr =>
    have hi : i ≠ .final := fun hi => hno ⟨e, rest, hp, hi ▸ ha⟩
    rw [exec_responses hexec, responsesOf_of_ne_final _ hi, List.append_nil, withPending_responses]
  all_goals simp

/-- Settles O52: the step that runs FINAL is `exec_final`; no other responds. -/
theorem onlyFinalResponds : Obligations.OnlyFinalResponds := by
  unfold Obligations.OnlyFinalResponds
  intro s t h
  by_cases hfinal : ∃ e rest, s.pending = e :: rest ∧ e.runs .final
  · obtain ⟨e, rest, hp, hrun⟩ := hfinal
    cases (step_of_run hp hrun).symm.trans h
    exact .inl ⟨⟨e, rest, hp, hrun⟩, by simp⟩
  · exact .inr ⟨hfinal, step_responses_of_not_final h hfinal⟩

/-! ## LEN after the wrap (R158) -/

theorem digest_of_len_lt (d : Sd) (h : d.len.toNat < 16) :
    d.digest = avalanche (tail (addLen (smallInit d.seed) d.len) d.carry) := by
  rw [Sd.digest, finish_short _ _ _ _ h]

/-- Settles O53: below 16 FINISH takes the short path, which reads no lane. -/
theorem wrappedLengthTakesTheShortPath : Obligations.WrappedLengthTakesTheShortPath := by
  unfold Obligations.WrappedLengthTakesTheShortPath
  refine ⟨fun d v h => ⟨digest_of_len_lt d h, ?_⟩, toNat_append_len, ?_⟩
  · rw [digest_of_len_lt d h, digest_of_len_lt { d with lanes := v } h]
  · rintro d rfl
    decide

end Sys2Proof.Proofs.Invariants

/-! Which steps of the digest can be undone (R94, R106), what FINISH reads (R92), and where XXH32 reads each byte (R102). -/

namespace Sys2Proof.Proofs.Reads

open Sys2Proof.Machine Sys2Proof.Proofs.Memory Sys2Proof.Proofs.Mixing Function

/-! ## Bijections (R11, R94, R106) -/

/-- Settles O17: `toNat_rotl32` and `getLsbD_rotl32`. -/
theorem rotationMovesEachBit : Obligations.RotationMovesEachBit := by
  unfold Obligations.RotationMovesEachBit
  exact fun a r _ hr => ⟨toNat_rotl32 a hr, fun i hi => getLsbD_rotl32 a hr hi⟩

theorem isUnit_prime4 : IsUnit prime4 := .of_mul_eq_one 0xA0FE3BCF#32 (by decide)

theorem tailWord_bijective_left (w : Word) : Bijective fun acc => tailWord acc w :=
  (rotl32_mul_bijective (by decide) isUnit_prime4).comp (AddGroup.addRight_bijective (w * prime3))

theorem tailWord_bijective_right (acc : Word) : Bijective fun w => tailWord acc w :=
  (rotl32_mul_bijective (by decide) isUnit_prime4).comp
    ((AddGroup.addLeft_bijective acc).comp (mul_bijective isUnit_prime3))

theorem tailByte_bijective (b : Word) : Bijective fun acc => tailByte acc b :=
  (rotl32_mul_bijective (by decide) isUnit_prime1).comp (AddGroup.addRight_bijective (b * prime5))

theorem addLen_bijective (n : Count) : Bijective fun acc => addLen acc n :=
  AddGroup.addRight_bijective (trunc32 n)

/-- The rotated lanes `1` and `-1` cancel. -/
theorem merge_not_injective : ¬Injective merge := fun h =>
  absurd (@h ⟨0x80000000, 0xFFFFFFFF, 0, 0⟩ ⟨0, 0, 0, 0⟩ (by decide)) (by decide)

/-- Settles O26: each step is a composition of additions, rotations, exclusive ors with a shift and multiplications by
units. -/
theorem mixingStepsAreInvertible : Obligations.MixingStepsAreInvertible := by
  unfold Obligations.MixingStepsAreInvertible
  exact ⟨by decide, fun r _ hr => rotl32_bijective hr, fun k hk _ => xorShift_bijective hk, tailWord_bijective_left,
    tailWord_bijective_right, fun b => tailByte_bijective (zext32 b), addLen_bijective, merge_not_injective⟩

theorem foldl_bijective {α : Type} {f : Word → α → Word} (hf : ∀ x, Bijective fun acc => f acc x) (l : List α) :
    Bijective fun acc => l.foldl f acc := by
  induction l with
  | nil => exact bijective_id
  | cons x l ih => exact ih.comp (hf x)

theorem tail_bijective (T : List Byte) : Bijective fun acc => tail acc T :=
  (foldl_bijective (fun _ => tailByte_bijective _) _).comp (foldl_bijective (fun _ => tailWord_bijective_left _) _)

/-- Settles O30: on the short path the seed is added to a constant, and every later step is a bijection. -/
theorem shortInputsSeparateSeeds : Obligations.ShortInputsSeparateSeeds := by
  unfold Obligations.ShortInputsSeparateSeeds
  intro data h
  simp only [OneShot.xxh32_short _ data h, smallInit]
  exact avalanche_bijective.comp <| (tail_bijective data).comp <|
    (AddGroup.addRight_bijective (BitVec.ofNat 32 data.length)).comp (AddGroup.addRight_bijective prime5)

/-! ## FINISH (R92, D20) -/

/-- Settles O27: `finish_short` names no lane and `finish_merge` no seed. -/
theorem finishReadsLanesOrSeed : Obligations.FinishReadsLanesOrSeed := by
  unfold Obligations.FinishReadsLanesOrSeed
  refine ⟨fun seed v w n T h => ?_, fun seed seed' v n T h => ?_, by decide⟩
  · rw [finish_short _ _ _ _ h, finish_short _ _ _ _ h]
  · rw [finish_merge _ _ _ _ h, finish_merge _ _ _ _ h]

/-! ## The reads of XXH32 (R100, R102) -/

/-- A word of a slice is the word read in place. -/
theorem le32_of_slice (S : List Byte) (off : Nat) {n k : Nat} (h : k + 4 ≤ n) :
    le32 (slice S off n) k = le32 S (off + k) := by
  simp only [le32, Nat.add_assoc]
  rw [byteAt_slice S off (by omega), byteAt_slice S off (by omega), byteAt_slice S off (by omega),
    byteAt_slice S off (by omega)]

/-- Block `j` is read at positions `16*j` to `16*j + 15`. -/
theorem mixBlocks_step (j : Nat) (v : Lanes) (S : List Byte) :
    mixBlocks (j + 1) v S =
      ⟨laneRound (mixBlocks j v S).v0 (le32 S (16 * j)), laneRound (mixBlocks j v S).v1 (le32 S (16 * j + 4)),
        laneRound (mixBlocks j v S).v2 (le32 S (16 * j + 8)), laneRound (mixBlocks j v S).v3 (le32 S (16 * j + 12))⟩ := by
  have hblock : mixBlocks (j + 1) v S = block (mixBlocks j v S) (slice S (16 * j) 16) := mixBlocks_add j 1 v S
  rw [hblock, block, le32_of_slice _ _ (by decide), le32_of_slice _ _ (by decide), le32_of_slice _ _ (by decide),
    le32_of_slice _ _ (by decide), Nat.add_zero]

theorem byteAt_drop (S : List Byte) (off i : Nat) : byteAt (S.drop off) i = byteAt S (off + i) := by
  simp [byteAt, List.getD_eq_getElem?_getD]

theorem le32_drop (S : List Byte) (off i : Nat) : le32 (S.drop off) i = le32 S (off + i) := by
  simp only [le32, byteAt_drop, Nat.add_assoc]

/-- The reads of TAIL on what follows position `off`: `nw` words, then `m` bytes. -/
theorem tail_drop (acc : Word) (S : List Byte) {off nw m : Nat} (h : S.length = off + 4 * nw + m) (hm : m < 4) :
    tail acc (S.drop off) =
      (List.range m).foldl (fun a r => tailByte a (zext32 (S.getD (off + 4 * nw + r) 0)))
        ((List.range nw).foldl (fun a q => tailWord a (le32 S (off + 4 * q))) acc) := by
  have hwords : (S.length - off) / 4 = nw := by omega
  have hbytes : S.length - off - 4 * nw = m := by omega
  simp only [tail, List.length_drop, hwords, hbytes, le32_drop, readByte, byteAt_drop, ← Nat.add_assoc]
  rfl

/-- Consecutive runs of `w` positions are one run. -/
theorem flatMap_range' (off w m : Nat) :
    ((List.range m).flatMap fun j => List.range' (off + w * j) w) = List.range' off (w * m) := by
  induction m with
  | zero => rfl
  | succ m ih =>
    rw [List.range_succ, List.flatMap_append, ih, List.flatMap_singleton, Nat.mul_succ, List.range'_append_1]

/-- The positions R102 lists, in the order of the reads: the blocks, the tail words, the tail bytes. -/
theorem readPositions_eq_range (nb nw m : Nat) :
    ((List.range nb).flatMap fun j => (List.range 4).flatMap fun k => (List.range 4).map fun i => 16 * j + 4 * k + i) ++
      ((List.range nw).flatMap fun q => (List.range 4).map fun i => 16 * nb + 4 * q + i) ++
      ((List.range m).map fun r => 16 * nb + 4 * nw + r) = List.range (16 * nb + 4 * nw + m) := by
  have hblocks : ((List.range nb).flatMap fun j => List.range' (16 * j) 16) = List.range' 0 (16 * nb) := by
    simpa using flatMap_range' 0 16 nb
  have hwords : List.range' 0 (16 * nb) ++ List.range' (16 * nb) (4 * nw) = List.range' 0 (16 * nb + 4 * nw) := by
    simpa using List.range'_append_1 (s := 0) (m := 16 * nb) (n := 4 * nw)
  have hbytes : List.range' 0 (16 * nb + 4 * nw) ++ List.range' (16 * nb + 4 * nw) m =
      List.range' 0 (16 * nb + 4 * nw + m) := by
    simpa using List.range'_append_1 (s := 0) (m := 16 * nb + 4 * nw) (n := m)
  simp only [← List.range'_eq_map_range, flatMap_range', Nat.reduceMul, hblocks]
  rw [hwords, hbytes, List.range_eq_range']

/-- Settles O29: `mixBlocks_step` for the blocks, `tail_drop` for the tail, `readPositions_eq_range` for the positions. -/
theorem eachInputByteIsReadOnce : Obligations.EachInputByteIsReadOnce := by
  unfold Obligations.EachInputByteIsReadOnce
  intro seed data n nb nw lanes
  have hn : n = 16 * nb + 4 * nw + n % 4 := by omega
  refine ⟨fun P _ i hi b hb => getLsbD_le32 data P hi hb, rfl, fun j _ => mixBlocks_step j _ _, fun hlt => ?_, ?_⟩
  · have hdigest := OneShot.xxh32_eq_fiveSteps seed data hlt
    rw [← mixBlocks_eq_indexed, ← OneShot.addLen_lengthOf, tail_drop _ data hn (Nat.mod_lt _ (by decide))] at hdigest
    exact hdigest
  · rw [readPositions_eq_range, ← hn]

end Sys2Proof.Proofs.Reads

/-! Sequences of commands: the three ways to append (R115), repeated FINALs (R124), completion (R114, R119), the pieces of a
long append and the pseudo-operations (R71), and streaming against the one-shot digest (R121). -/

namespace Sys2Proof.Proofs.Sequences

open Sys2Proof.Machine Sys2Proof.Proofs.Encoding Sys2Proof.Proofs.Streaming Sys2Proof.Proofs.Steps
  Sys2Proof.Proofs.Invariants

/-! ## Appending byte by byte (R115) -/

theorem appendByte_eq_append (d : Sd) (b : Byte) (h : d.carry.length ≤ 15) : d.appendByte b = d.append [b] := by
  have hlen : (d.carry ++ [b]).length = d.carry.length + 1 := List.length_append
  rw [append_eq_absorb d [b] h, absorb_eq, Sd.appendByte]
  split
  next hfull =>
    simp [hfull, mixBlocks_succ, List.take_of_length_le hfull.le, List.drop_of_length_le hfull.le, lengthOf]
  next hpart =>
    have hblocks : (d.carry.length + 1) / 16 = 0 := by omega
    simp [hlen, hblocks, lengthOf]

theorem foldl_appendByte (d : Sd) (chunk : List Byte) (h : d.carry.length ≤ 15) :
    chunk.foldl Sd.appendByte d = d.append chunk := by
  induction chunk generalizing d with
  | nil => exact (append_nil d h).symm
  | cons b chunk ih =>
    rw [List.foldl_cons, appendByte_eq_append d b h, ih _ (append_carry_length_le d [b] h), append_append d _ _ h,
      List.singleton_append]

/-- Settles O34: `append_eq_indexed` and `foldl_appendByte`. -/
theorem threeWaysToAppendAgree : Obligations.ThreeWaysToAppendAgree := by
  unfold Obligations.ThreeWaysToAppendAgree
  exact fun d chunk h => ⟨append_eq_indexed d chunk h, (foldl_appendByte d chunk h).symm⟩

/-! ## Sequences of instructions -/

/-- Settles O39: each FINAL leaves the context, so the next one responds alike. -/
theorem finalizeIsStable : Obligations.FinalizeIsStable := by
  unfold Obligations.FinalizeIsStable
  intro s k
  induction k generalizing s with
  | zero => simp
  | succ k ih =>
    rw [List.replicate_succ, execAll_cons_next (exec_final s), ih, respond_sd, respond_responses, List.append_assoc]
    rfl

/-- Settles O40: `exec_completes` for the first instruction, which leaves the envelope as it is for the rest. -/
theorem everyCommandIsLegalInEveryState : Obligations.EveryCommandIsLegalInEveryState := by
  unfold Obligations.EveryCommandIsLegalInEveryState
  intro prog s hprog
  induction prog generalizing s with
  | nil => exact ⟨s, rfl, rfl, rfl⟩
  | cons i prog ih =>
    obtain ⟨hi, hrest⟩ := List.forall_mem_cons.1 hprog
    obtain ⟨s', hs'⟩ := exec_completes hi
    obtain ⟨t, ht, hparams, hpending⟩ := ih s' (by rwa [exec_params hs'])
    exact ⟨t, (execAll_cons_next hs').trans ht, hparams.trans (exec_params hs'), hpending.trans (exec_pending hs')⟩

/-! ## Pieces of a long append (R71) -/

section
variable {cap : Nat}

theorem pieces_length_le (fuel : Nat) (data : List Byte) : ∀ piece ∈ pieces cap fuel data, piece.length ≤ cap := by
  induction fuel generalizing data with
  | zero => exact nofun
  | succ fuel ih =>
    rw [pieces]
    split
    next h => simpa using h
    next h => exact List.forall_mem_cons.2 ⟨List.length_take_le _ _, ih _⟩

/-- Each piece takes at least one byte, so fuel beyond the length is enough. -/
theorem pieces_flatten (hcap : 1 ≤ cap) {fuel : Nat} {data : List Byte} (hfuel : data.length < fuel) :
    (pieces cap fuel data).flatten = data := by
  induction fuel generalizing data with
  | zero => exact absurd hfuel (Nat.not_lt_zero _)
  | succ fuel ih =>
    rw [pieces]
    split
    next h => exact List.flatten_singleton
    next h => rw [List.flatten_cons, ih (by rw [List.length_drop]; omega), List.take_append_drop]

end

/-- R122 over chunks that fit one by one, whatever their total length. -/
theorem execAll_appends_of_fit (chunks : List (List Byte)) (s : State) (hcarry : s.sd.carry.length ≤ 15)
    (hfits : ∀ chunk ∈ chunks, chunk.length ≤ s.params.maxChunk.val) :
    execAll (chunks.map .append) s = .next (s.setSd (s.sd.append chunks.flatten)) := by
  induction chunks generalizing s with
  | nil => rw [List.flatten_nil, append_nil _ hcarry, setSd_self]; rfl
  | cons c cs ih =>
    obtain ⟨hc, hcs⟩ := List.forall_mem_cons.1 hfits
    rw [List.map_cons, execAll_cons_next (exec_append c s (decide_eq_true hc)),
      ih _ (by rw [setSd_sd]; exact append_carry_length_le _ _ hcarry) (by rwa [setSd_params]),
      setSd_sd, setSd_setSd, append_append _ _ _ hcarry, List.flatten_cons]

/-- Settles O44: the pieces fit, and flattened they are the data. -/
theorem longAppendIsPieces : Obligations.LongAppendIsPieces := by
  unfold Obligations.LongAppendIsPieces
  intro s data hwf hcarry
  have hflatten : (pieces s.params.maxChunk.val (data.length + 1) data).flatten = data :=
    pieces_flatten (of_decide_eq_true hwf) (Nat.lt_succ_self _)
  have hfits := pieces_length_le (cap := s.params.maxChunk.val) (data.length + 1) data
  refine ⟨fun i hi => ?_, ?_, ?_⟩
  · obtain ⟨piece, hpiece, rfl⟩ := List.mem_map.1 hi
    exact ⟨piece, rfl, hfits piece hpiece⟩
  · rw [longAppend, List.flatMap_map]
    exact List.flatMap_id'.trans hflatten
  · rw [longAppend, execAll_appends_of_fit _ s hcarry hfits, hflatten]
    rfl

/-- Settles O45: each pseudo-operation is the instruction it names. -/
theorem pseudoOperationsExpand : Obligations.PseudoOperationsExpand := by
  unfold Obligations.PseudoOperationsExpand
  exact fun s => ⟨rfl, fun _ => rfl, fun _ => rfl,
    fun data seed hfits => exec_xxh32 seed data s (decide_eq_true hfits), exec_append_nil s⟩

/-! ## Streaming over steps (R121) -/

theorem stepMany_succ {s t : State} (h : step s = .next t) (k : Nat) : stepMany (k + 1) s = stepMany k t := by
  rw [stepMany, h]

theorem stepMany_add {s t : State} {j : Nat} (h : stepMany j s = .next t) (k : Nat) :
    stepMany (j + k) s = stepMany k t := by
  induction j generalizing s with
  | zero => cases h; rw [Nat.zero_add]
  | succ j ih =>
    rw [stepMany] at h
    rw [Nat.succ_add, stepMany]
    cases hs : step s with
    | next s' => rw [hs] at h; exact ih h
    | fault f => cases f
    | refused r => rw [hs] at h; cases h

/-- A stream command within the port is well-formed and completes; it appends its payload, FINAL the empty one. -/
theorem step_streamCommand {s : State} {i : Instr} {rest : List Event} (hi : streamCommand s.params i = true)
    (hcarry : s.sd.carry.length ≤ 15) (hp : s.pending = eventOf i :: rest) :
    ∃ t, step s = .next t ∧ t.sd = s.sd.append i.payload ∧ t.pending = rest ∧ t.params = s.params := by
  cases i with
  | append chunk =>
    have hlt : chunk.length < 2 ^ 32 := Nat.lt_of_le_of_lt (of_decide_eq_true hi) s.params.maxChunk.isLt
    rw [step_of_run hp (action_eventOf (decide_eq_true hlt)), exec_append _ _ (by rwa [withPending_params])]
    exact ⟨_, rfl, by simp [Instr.payload], by simp, by simp⟩
  | final =>
    rw [step_of_run hp (action_eventOf rfl), exec_final]
    exact ⟨_, rfl, by simp [Instr.payload, append_nil _ hcarry], by simp, by simp⟩
  | xxh32 seed data => cases hi
  | init seed => cases hi
  | reset => cases hi

theorem stepMany_streamCommands (prog : List Instr) {s : State} {rest : List Event}
    (hprog : ∀ i ∈ prog, streamCommand s.params i = true) (hcarry : s.sd.carry.length ≤ 15)
    (hp : s.pending = prog.map eventOf ++ rest) :
    ∃ t, stepMany prog.length s = .next t ∧ t.sd = s.sd.append (prog.flatMap Instr.payload) ∧ t.pending = rest ∧
      t.params = s.params := by
  induction prog generalizing s with
  | nil => exact ⟨s, rfl, (append_nil _ hcarry).symm, hp, rfl⟩
  | cons i prog ih =>
    obtain ⟨hi, hrest⟩ := List.forall_mem_cons.1 hprog
    obtain ⟨s', hs', hsd', hp', hparams'⟩ := step_streamCommand hi hcarry hp
    have hcarry' : s'.sd.carry.length ≤ 15 := by rw [hsd']; exact append_carry_length_le _ _ hcarry
    obtain ⟨t, ht, hsd, hpt, hparams⟩ := ih (by rwa [hparams']) hcarry' hp'
    refine ⟨t, (stepMany_succ hs' _).trans ht, ?_, hpt, hparams.trans hparams'⟩
    rw [hsd, hsd', append_append _ _ _ hcarry, List.flatMap_cons]

/-- Each of the three starts leaves the fresh context of the seed. -/
theorem step_start {s : State} {seed : Word} {start : Event} {rest : List Event} (hp : s.pending = start :: rest)
    (hstart : start = eventOf (.init seed) ∨ (start = eventOf .reset ∧ s.sd.seed = seed) ∨
      (start = rstEvent ∧ seed = 0)) :
    step s = .next ((s.withPending rest).setSd (Sd.construct seed)) := by
  obtain rfl | ⟨rfl, rfl⟩ | ⟨rfl, rfl⟩ := hstart
  · rw [step_of_run hp (action_eventOf rfl), exec_init]
  · rw [step_of_run hp (action_eventOf rfl), exec_reset_eq_exec_init, exec_init, withPending_sd]
  · rw [step_of_reset hp rfl]
    rfl

/-- Settles O43: the start leaves a fresh context, the commands append the stream to it, and FINAL responds with the digest
that `digest_construct_append` gives. -/
theorem streamingEqualsOneShot : Obligations.StreamingEqualsOneShot := by
  unfold Obligations.StreamingEqualsOneShot
  intro s seed start prog later hstart hprog _ hp
  have hfirst := step_start hp hstart
  obtain ⟨t, ht, hsd, hpt, hparams⟩ := stepMany_streamCommands prog
    (s := (s.withPending (prog.map eventOf ++ eventOf .final :: later)).setSd (Sd.construct seed))
    (rest := eventOf .final :: later) (by simpa using hprog) (by simp) (by simp)
  have hlast := step_of_run hpt (action_eventOf rfl)
  rw [exec_final, withPending_sd, hsd, setSd_sd, digest_construct_append] at hlast
  refine ⟨(t.withPending later).respond (xxh32 seed (prog.flatMap Instr.payload)), ?_, by simp, by simp,
    by simpa using hparams⟩
  rw [stepMany_succ hfirst, stepMany_add ht, stepMany_succ hlast]
  rfl

end Sys2Proof.Proofs.Sequences
